-- ==== Sys2Proof/Word.lean ====
section
/-! DEFINITION. The machine's word and byte (spec/00_scope.md R6, R8). -/

namespace Sys2Proof

/-- A word: an unsigned 32-bit value, the unit of instructions and of memory cells
(00_scope.md R6, glossary "Word"; 20_memory.md R46). -/
abbrev Word := BitVec 32

/-- A byte of the input or output stream, 0 to 255 (10_state.md R41, R42). -/
abbrev Byte := BitVec 8

end Sys2Proof
end

