-- ==== Sys2Proof/Machine/Flags.lean ====
section
/-! DEFINITION. There are no flags, condition codes or predicate registers (spec/10_state.md R23). The
only conditions are these tests of a value, made at the time of the instruction. -/

namespace Sys2Proof.Machine

/-- The test against zero: CMOV's condition, DIV's divisor, and the identifier of UNMAP and LOADP
(10_state.md R23; 40_register_ops.md R100, R103; 20_memory.md R57; 42_program_control.md R135). -/
def isZero (v : Word) : Bool := v == 0#32

/-- The test of OUT: v > 255 (43_io.md R140). -/
def aboveByte (v : Word) : Bool := decide (255 < v.toNat)

end Sys2Proof.Machine
end

