-- ==== Sys2Proof/Config.lean ====
section
/-! DEFINITION. What an implementation fixes: the OPEN parameters of spec/00_scope.md R6 that are not
the input's (INPUT_MODEL stands in Machine/State.lean) nor the decoder's (OPCODE_MAP, Decode.lean). -/

namespace Sys2Proof

/-- The OPEN parameters an implementation fixes (00_scope.md R6). They are held in State, no step
changes them, and a statement about every state is a statement about every value of them.
DESIGN CHOICE of form, log 8 and 9. -/
structure Params where
  /-- CAP_WORDS, the total words over all mapped segments; `none` is unbounded (20_memory.md R69). -/
  capWords : Option Nat
  /-- EXIT_HALT, the status code of a halted run (10_state.md R43). -/
  exitHalt : Nat
  /-- EXIT_FAULT, the status code of a faulted run (10_state.md R43). -/
  exitFault : Nat
  /-- "with EXIT_HALT != EXIT_FAULT" (10_state.md R43). -/
  distinct : exitHalt ≠ exitFault
deriving DecidableEq, Repr

/-- The parameters State.reset holds. CAP_WORDS unbounded is the spec's reference value
(20_memory.md R69); the two exit codes are a DESIGN CHOICE, unsafe to rest a claim on: log 8, 9. -/
def Config.reference : Params where
  capWords := none
  exitHalt := 0
  exitFault := 1
  distinct := by decide

/-- PROGRAM_MAX_WORDS, the longest program the program-load port accepts (00_scope.md R6, D7). -/
def Config.programMaxWords : Nat := 2 ^ 32 - 1

end Sys2Proof
end

