-- ==== Sys2Proof/Machine/State.lean ====
section
/-! DEFINITION. The machine's state as plain data (spec/10_state.md R37), the reasons it can stop, and
the state after reset (spec/70_reset_and_hazards.md R180). -/

namespace Sys2Proof.Machine

/-- The fault kinds of 60_exceptions.md R161. -/
inductive FaultKind where
  | decodeError
  | boundsError
  | arithmeticError
  | ioError
  | resourceExhausted
deriving DecidableEq, Repr

/-- What made a fault: "the detail named in info" of 60_exceptions.md R162, as the pseudocode of the
rule that raises it names it. The kind follows from it (FaultCause.kind). DEDUCED, log 7. -/
inductive FaultCause where
  /-- BoundsError(fetch, pc): no word at pc in segment 0 (30_encoding.md R79, R80). -/
  | fetch
  /-- DecodeError(op, pc, w): opcode 14 or 15 (30_encoding.md R79, 44_halt_invalid.md R151). -/
  | opcode (op : BitVec 4)
  /-- BoundsError(unmapped id) (20_memory.md R50, R57, R58). -/
  | unmappedId
  /-- BoundsError(offset out of range) (20_memory.md R50). -/
  | offsetOutOfRange
  /-- BoundsError(unmap of segment 0) (20_memory.md R57). -/
  | unmapSegment0
  /-- ArithmeticError(pc, w): divisor 0 (40_register_ops.md R103). -/
  | divideByZero
  /-- IOError(pc, w): output value above 255 (43_io.md R140). -/
  | outputRange
  /-- ResourceExhausted(storage) (20_memory.md R55, R58). -/
  | storage
  /-- ResourceExhausted(ids) (20_memory.md R55, R56). -/
  | ids
deriving DecidableEq, Repr

/-- The fault record of 60_exceptions.md R162. -/
structure FaultRecord where
  kind : FaultKind
  /-- The code of R161. -/
  code : Nat
  /-- The pc of the faulting word. -/
  pc : Word
  /-- The instruction word, or none for a fetch fault. -/
  word : Option Word
  cause : FaultCause
deriving DecidableEq, Repr

/-- The run status of 10_state.md R32. -/
inductive Status where
  | running
  | halted
  | faulted (f : FaultRecord)
deriving DecidableEq, Repr

/-- One answer of the host to an input request (10_state.md R41). -/
inductive InputAnswer where
  | byte (b : Byte)
  | eos
deriving DecidableEq, Repr

/-- What follows the listed answers: EOS for every later request (sticky, the reference INPUT_MODEL)
or no answer at all (92_eei_decisions.md D10). -/
inductive InputTail where
  | eosForever
  | never
deriving DecidableEq, Repr

/-- The host's side of the input port: the MODEL's own data standing for the OPEN parameter
INPUT_MODEL (92_eei_decisions.md D10; 10_state.md R37, R41). DESIGN CHOICE, log 10. -/
structure InputPort where
  /-- The answers the host will give, in order. -/
  answers : List InputAnswer
  /-- What follows them. -/
  after : InputTail
  /-- The answers consumed so far (10_state.md R44), oldest first. -/
  consumed : List InputAnswer
deriving DecidableEq, Repr

/-- A segment: its length in words, and the words that are not 0, each with its offset. An offset
below the length that is not listed reads 0, as a new segment does (20_memory.md R49). The canonical
form is Segment.wf of Machine/Memory.lean. DESIGN CHOICE of form, log 1. -/
structure Segment where
  len : Nat
  cells : List (Nat × Word)
deriving DecidableEq, Repr

/-- The segment table: the mapped identifiers, rising, each with its segment (10_state.md R27). -/
abbrev Memory := List (Nat × Segment)

/-- The full state (10_state.md R37), with the waiting-input bit of R35, and the model's own two
last fields, which stand for the spec's OPEN parameters. -/
structure State where
  /-- x[0] to x[7] (R20). -/
  regs : Vector Word 8
  /-- The program counter, a word index into segment 0 (R24). -/
  pc : Word
  /-- The segment table (R27): the spec's `segs`. -/
  mem : Memory
  /-- The free list, head most recently released (R29). -/
  free : List Word
  /-- The next-fresh-identifier counter (R30): the spec's `next`. -/
  nextId : Nat
  /-- The run status (R32). -/
  status : Status
  /-- An input request is outstanding (R33, R35). -/
  waitingInput : Bool
  /-- The bytes emitted so far (R42). -/
  out : List Byte
  /-- The model's own: the host's side of the input port (R41). -/
  input : InputPort
  /-- The model's own: the OPEN parameters of the implementation (00_scope.md R6). -/
  params : Params
deriving DecidableEq, Repr

/-- Why there is no step. Raised by State.noStep?, which `step` asks first; no instruction's meaning
answers one. All three are safe: the spec says that no step exists there (30_encoding.md R79). -/
inductive Fault where
  /-- The status is Halted: "a Halted or Faulted core has no step" (30_encoding.md R79,
  60_exceptions.md R171). Safe. -/
  | halted
  /-- The status is Faulted with this record (30_encoding.md R79, 60_exceptions.md R171). Safe. -/
  | faulted (f : FaultRecord)
  /-- The core waits on the input port and the host has no answer (30_encoding.md R79,
  10_state.md R33): stuck, not final (93_implementation_defined.md). Safe. -/
  | waitingForInput
deriving DecidableEq, Repr

/-- Why an instruction has no meaning in the model. -/
inductive Refusal where
  /-- An instruction with no meaning yet, by its mnemonic. No arm of exec answers it. Safe. -/
  | notModelled (mnemonic : String)
deriving DecidableEq, Repr

/-- What a step or a meaning answers. -/
abbrev Result := Host.Outcome State Fault Refusal

/-- The machine right after reset (70_reset_and_hazards.md R180) with the empty program, which R184
accepts. A program is loaded from outside, through the program-load port (Machine/Ports.lean): log
12. The input port and the parameters are the model's own fields: log 8, 9, 10. -/
def State.reset : State where
  regs := Vector.replicate 8 0
  pc := 0
  mem := [(0, ⟨0, []⟩)]
  free := []
  nextId := 1
  status := .running
  waitingInput := false
  out := []
  input := ⟨[], .eosForever, []⟩
  params := Config.reference

end Sys2Proof.Machine
end

