-- ==== Sys2Proof/Machine/Memory.lean ====
section
/-! DEFINITION. The memory: sorted lists of numbered entries, segments over them, the segment table
over segments, and the translation, read and write of spec/20_memory.md R47 to R52. -/

namespace Sys2Proof.Machine

/-- The entry at key k, if one is listed. -/
def assocFind {α : Type} : List (Nat × α) → Nat → Option α
  | [], _ => none
  | (n, v) :: rest, k => if n = k then some v else assocFind rest k

/-- The list with v at key k, put in its place in the rising order. -/
def assocInsert {α : Type} : List (Nat × α) → Nat → α → List (Nat × α)
  | [], k, v => [(k, v)]
  | (n, u) :: rest, k, v =>
    if k < n then (k, v) :: (n, u) :: rest
    else if n = k then (k, v) :: rest
    else (n, u) :: assocInsert rest k v

/-- The list without an entry at key k. -/
def assocErase {α : Type} : List (Nat × α) → Nat → List (Nat × α)
  | [], _ => []
  | (n, v) :: rest, k => if n = k then assocErase rest k else (n, v) :: assocErase rest k

/-- The keys are strictly rising. -/
abbrev Rising {α : Type} (l : List (Nat × α)) : Prop := (l.map Prod.fst).Pairwise (· < ·)

/-- A new segment of n words, each 0 (20_memory.md R49, R55). -/
def Segment.zeros (n : Nat) : Segment := ⟨n, []⟩

/-- What an unlisted offset reads as: a new segment is "zero-initialized" (20_memory.md R49). -/
def Segment.unlisted : Word := 0#32

/-- The word at offset off, for an offset below the length (20_memory.md R47, R51). -/
def Segment.read (g : Segment) (off : Nat) : Word := (assocFind g.cells off).getD Segment.unlisted

/-- The segment with the word v at offset off and every other word as before (20_memory.md R52). A
word that reads as an unlisted one is not listed, so equal segments are equal data. -/
def Segment.write (g : Segment) (off : Nat) (v : Word) : Segment :=
  if v = Segment.unlisted then { g with cells := assocErase g.cells off }
  else { g with cells := assocInsert g.cells off v }

/-- The listed cells of the words ws placed from offset k on. -/
def cellsFrom : Nat → List Word → List (Nat × Word)
  | _, [] => []
  | k, w :: ws => if w = Segment.unlisted then cellsFrom (k + 1) ws else (k, w) :: cellsFrom (k + 1) ws

/-- The segment that holds a sequence of words (10_state.md R27, R40). -/
def Segment.ofWords (ws : List Word) : Segment := ⟨ws.length, cellsFrom 0 ws⟩

/-- The words of a segment, in order: the sequence of 10_state.md R27 that it stands for. -/
def Segment.words (g : Segment) : List Word := (List.range g.len).map g.read

/-- The canonical form of a segment: offsets rising and below the length, no listed word that reads as
an unlisted one, and a length of 0 to 2^32-1 words (20_memory.md R48). -/
abbrev Segment.wf (g : Segment) : Prop :=
  Rising g.cells ∧ (∀ p ∈ g.cells, p.1 < g.len ∧ p.2 ≠ Segment.unlisted) ∧ g.len ≤ 2 ^ 32 - 1

/-- The canonical form of the memory: identifiers rising and 32 bits wide (10_state.md R27), each
segment in its canonical form. -/
abbrev Memory.wf (m : Memory) : Prop := Rising m ∧ ∀ p ∈ m, p.1 < 2 ^ 32 ∧ p.2.wf

/-- The segment of an identifier, if it is mapped (20_memory.md R47). -/
def Memory.find (m : Memory) (id : Word) : Option Segment := assocFind m id.toNat

/-- Mapped(id) (20_memory.md R47). -/
def Memory.mapped (m : Memory) (id : Word) : Bool := (m.find id).isSome

/-- Len(id), "defined only when Mapped(id)" (20_memory.md R47); 0 for an unmapped identifier, which no
rule reads (log 17). -/
def Memory.len (m : Memory) (id : Word) : Nat :=
  match m.find id with
  | some g => g.len
  | none => 0

/-- The table with segment g at identifier id. -/
def Memory.put (m : Memory) (id : Word) (g : Segment) : Memory := assocInsert m id.toNat g

/-- The table without identifier id. -/
def Memory.remove (m : Memory) (id : Word) : Memory := assocErase m id.toNat

/-- Total words of all mapped segments (20_memory.md R55, R69). -/
def Memory.totalWords (m : Memory) : Nat := (m.map fun p => p.2.len).sum

/-- Translate(id, off) (20_memory.md R50): the segment that holds the cell, after the presence check
and then the bounds check. -/
def Memory.translate (m : Memory) (id off : Word) : Except FaultCause Segment :=
  match m.find id with
  | none => .error .unmappedId
  | some g => if g.len ≤ off.toNat then .error .offsetOutOfRange else .ok g

/-- SegRead(id, off) (20_memory.md R51). -/
def Memory.segRead (m : Memory) (id off : Word) : Except FaultCause Word :=
  match m.translate id off with
  | .error c => .error c
  | .ok g => .ok (g.read off.toNat)

/-- SegWrite(id, off, v) (20_memory.md R52). -/
def Memory.segWrite (m : Memory) (id off v : Word) : Except FaultCause Memory :=
  match m.translate id off with
  | .error c => .error c
  | .ok g => .ok (m.put id (g.write off.toNat v))

/-- The word at (id, off), or none where there is no such cell: what the translation of 20_memory.md
R50 lets a program read. Statements about memory speak through it. -/
def Memory.wordAt (m : Memory) (id off : Word) : Option Word :=
  match m.segRead id off with
  | .error _ => none
  | .ok v => some v

end Sys2Proof.Machine
end

