-- ==== Sys2Proof/Syntax.lean ====
section
/-! DEFINITION. The instructions: one constructor of Instr for each row of spec/opcode_table.json. -/

namespace Sys2Proof

/-- A general register's number, 0 to 7 (10_state.md R20, R22). -/
abbrev Reg := Fin 8

/-- The 25-bit immediate of LI (30_encoding.md R73). -/
abbrev Imm := BitVec 25

/-- The fourteen operations, under the mnemonics of 00_scope.md R11. -/
inductive Op where
  | cmov | sload | sstore | add | mul | div | nand | halt | map | unmap | out | inp | loadp | li
deriving DecidableEq, Repr

/-- A decoded instruction: an operation with the fields 30_encoding.md R76 marks as used, and no
other bit of its word (log 16). `a`, `b`, `c` are the register fields A, B, C of R72. -/
inductive Instr where
  /-- CMOV, conditional move (40_register_ops.md R100). -/
  | cmov (a b c : Reg)
  /-- SLOAD, segmented load (41_segment_ops.md R120). -/
  | sload (a b c : Reg)
  /-- SSTORE, segmented store (41_segment_ops.md R121). -/
  | sstore (a b c : Reg)
  /-- ADD (40_register_ops.md R101). -/
  | add (a b c : Reg)
  /-- MUL (40_register_ops.md R102). -/
  | mul (a b c : Reg)
  /-- DIV (40_register_ops.md R103). -/
  | div (a b c : Reg)
  /-- NAND (40_register_ops.md R104). -/
  | nand (a b c : Reg)
  /-- HALT (44_halt_invalid.md R150). -/
  | halt
  /-- MAP, map segment (41_segment_ops.md R122). -/
  | map (b c : Reg)
  /-- UNMAP, unmap segment (41_segment_ops.md R123). -/
  | unmap (c : Reg)
  /-- OUT, output (43_io.md R140). -/
  | out (c : Reg)
  /-- IN, input (43_io.md R141). -/
  | inp (c : Reg)
  /-- LOADP, load program (42_program_control.md R135). -/
  | loadp (b c : Reg)
  /-- LI, load immediate (40_register_ops.md R105). -/
  | li (a : Reg) (imm : Imm)
deriving DecidableEq, Repr

/-- What decode answers (30_encoding.md R78): an instruction, or the invalid opcode it found. -/
inductive Decoded where
  /-- The word is this instruction. -/
  | instr (i : Instr)
  /-- "Invalid(op)": the opcode field is 14 or 15 (R77). -/
  | invalid (op : BitVec 4)
deriving DecidableEq, Repr

/-- The numbering of the operations: which opcode 0 to 13 selects which operation. The spec's
parameter OPCODE_MAP (30_encoding.md R74). -/
abbrev OpcodeMap := Fin 14 → Op

end Sys2Proof
end

