-- ==== Sys2Proof/WellFormed.lean ====
section
/-! DEFINITION. Well-formedness. A term of Instr has every register in 0..7 and its immediate in 25
bits by its type, as spec/10_state.md R22 says a decoded one has. What can be ill-formed is an
instruction as it is WRITTEN, with numbers for registers and immediates: these are the checks of
spec/30_encoding.md R84, each refusing by name. -/

namespace Sys2Proof

/-- An operand as written: a register name r<n> or a number (30_encoding.md R84). -/
inductive AsmOperand where
  | reg (n : Nat)
  | num (n : Nat)
deriving DecidableEq, Repr

/-- An instruction as written: a mnemonic and its operands in order (30_encoding.md R84). -/
structure AsmInstr where
  op : Op
  operands : List AsmOperand
deriving DecidableEq, Repr

/-- Why a written instruction is refused. -/
inductive AsmError where
  /-- The number or kind of the operands is not the one R84's table gives the mnemonic. -/
  | operands
  /-- "a register name outside r0..r7" (R84). -/
  | register (n : Nat)
  /-- "an immediate outside 0..33554431" (R84). -/
  | immediate (n : Nat)
deriving DecidableEq, Repr

/-- The register check of 30_encoding.md R84. -/
def asmReg (n : Nat) : Except AsmError Reg :=
  if h : n < 8 then .ok ⟨n, h⟩ else .error (.register n)

/-- The immediate check of 30_encoding.md R84. -/
def asmImm (n : Nat) : Except AsmError Imm :=
  if n ≤ 33554431 then .ok (BitVec.ofNat 25 n) else .error (.immediate n)

/-- Three written registers checked from left to right. -/
def asmRegs3 (k : Reg → Reg → Reg → Instr) (a b c : Nat) : Except AsmError Instr := do
  return k (← asmReg a) (← asmReg b) (← asmReg c)

/-- The instruction a written one stands for, by the operand order of 30_encoding.md R84's table. -/
def AsmInstr.check (t : AsmInstr) : Except AsmError Instr :=
  match t.op, t.operands with
  | .cmov, [.reg a, .reg b, .reg c] => asmRegs3 .cmov a b c
  | .sload, [.reg a, .reg b, .reg c] => asmRegs3 .sload a b c
  | .sstore, [.reg a, .reg b, .reg c] => asmRegs3 .sstore a b c
  | .add, [.reg a, .reg b, .reg c] => asmRegs3 .add a b c
  | .mul, [.reg a, .reg b, .reg c] => asmRegs3 .mul a b c
  | .div, [.reg a, .reg b, .reg c] => asmRegs3 .div a b c
  | .nand, [.reg a, .reg b, .reg c] => asmRegs3 .nand a b c
  | .halt, [] => .ok .halt
  | .map, [.reg b, .reg c] => return .map (← asmReg b) (← asmReg c)
  | .unmap, [.reg c] => return .unmap (← asmReg c)
  | .out, [.reg c] => return .out (← asmReg c)
  | .inp, [.reg c] => return .inp (← asmReg c)
  | .loadp, [.reg b, .reg c] => return .loadp (← asmReg b) (← asmReg c)
  | .li, [.reg a, .num n] => return .li (← asmReg a) (← asmImm n)
  | _, _ => .error .operands

/-- A written instruction is well formed when no check refuses it. -/
def AsmInstr.wellFormed (t : AsmInstr) : Bool :=
  match t.check with
  | .ok _ => true
  | .error _ => false

/-- An instruction as R84 writes it, in numbers: the operand order of R84's table. -/
def Instr.toAsm : Instr → AsmInstr
  | .cmov a b c => ⟨.cmov, [.reg a, .reg b, .reg c]⟩
  | .sload a b c => ⟨.sload, [.reg a, .reg b, .reg c]⟩
  | .sstore a b c => ⟨.sstore, [.reg a, .reg b, .reg c]⟩
  | .add a b c => ⟨.add, [.reg a, .reg b, .reg c]⟩
  | .mul a b c => ⟨.mul, [.reg a, .reg b, .reg c]⟩
  | .div a b c => ⟨.div, [.reg a, .reg b, .reg c]⟩
  | .nand a b c => ⟨.nand, [.reg a, .reg b, .reg c]⟩
  | .halt => ⟨.halt, []⟩
  | .map b c => ⟨.map, [.reg b, .reg c]⟩
  | .unmap c => ⟨.unmap, [.reg c]⟩
  | .out c => ⟨.out, [.reg c]⟩
  | .inp c => ⟨.inp, [.reg c]⟩
  | .loadp b c => ⟨.loadp, [.reg b, .reg c]⟩
  | .li a imm => ⟨.li, [.reg a, .num imm.toNat]⟩

end Sys2Proof
end

