-- ==== Sys2Proof/Decode.lean ====
section
/-! DEFINITION. The word codec, the decoder and the encoder (spec/30_encoding.md R70 to R78, R84). -/

namespace Sys2Proof

/-- `extract(word, width, lsb)`: the width-bit unsigned value at bit offset lsb of word
(30_encoding.md R71), which is w[lsb+width-1 : lsb] in the notation of 00_scope.md R7. -/
def extract (w : Word) (width lsb : Nat) : BitVec width := w.extractLsb' lsb width

/-- A 3-bit field used as it stands as a register index (30_encoding.md R75, 10_state.md R22). -/
def regField (w : Word) (lsb : Nat) : Reg := ⟨(extract w 3 lsb).toNat, (extract w 3 lsb).isLt⟩

/-- Field op, bits 31:28 (R71). -/
def fieldOp (w : Word) : BitVec 4 := extract w 4 28

/-- Field A, bits 8:6 (R71, R72). -/
def fieldA (w : Word) : Reg := regField w 6

/-- Field B, bits 5:3 (R71, R72). -/
def fieldB (w : Word) : Reg := regField w 3

/-- Field C, bits 2:0 (R71, R72). -/
def fieldC (w : Word) : Reg := regField w 0

/-- Field a of the LI format, the source's destL, bits 27:25 (R71, R73). -/
def fieldDest (w : Word) : Reg := regField w 25

/-- Field imm of the LI format, bits 24:0 (R71, R73). -/
def fieldImm (w : Word) : Imm := extract w 25 0

/-- The operation each opcode selects, in the order 0 to 13: the reference value of OPCODE_MAP
(30_encoding.md R74). PRESUMED, unsafe: the spec takes it from general knowledge; log 2. -/
def opcodeMap (n : Fin 14) : Op :=
  match n.val with
  | 0 => .cmov
  | 1 => .sload
  | 2 => .sstore
  | 3 => .add
  | 4 => .mul
  | 5 => .div
  | 6 => .nand
  | 7 => .halt
  | 8 => .map
  | 9 => .unmap
  | 10 => .out
  | 11 => .inp
  | 12 => .loadp
  | _ => .li

/-- The opcode of each operation under the reference OPCODE_MAP, the other direction of the table of
30_encoding.md R74. -/
def opcodeOf : Op → Fin 14
  | .cmov => 0
  | .sload => 1
  | .sstore => 2
  | .add => 3
  | .mul => 4
  | .div => 5
  | .nand => 6
  | .halt => 7
  | .map => 8
  | .unmap => 9
  | .out => 10
  | .inp => 11
  | .loadp => 12
  | .li => 13

/-- The instruction of operation k in word w: the used fields of 30_encoding.md R76, in format LI for
the load immediate and in format RRR for every other operation (R72, R73, R78). Unused bits are
ignored: the spec's own decision D2, log 3. -/
def instrOf (k : Op) (w : Word) : Instr :=
  match k with
  | .cmov => .cmov (fieldA w) (fieldB w) (fieldC w)
  | .sload => .sload (fieldA w) (fieldB w) (fieldC w)
  | .sstore => .sstore (fieldA w) (fieldB w) (fieldC w)
  | .add => .add (fieldA w) (fieldB w) (fieldC w)
  | .mul => .mul (fieldA w) (fieldB w) (fieldC w)
  | .div => .div (fieldA w) (fieldB w) (fieldC w)
  | .nand => .nand (fieldA w) (fieldB w) (fieldC w)
  | .halt => .halt
  | .map => .map (fieldB w) (fieldC w)
  | .unmap => .unmap (fieldC w)
  | .out => .out (fieldC w)
  | .inp => .inp (fieldC w)
  | .loadp => .loadp (fieldB w) (fieldC w)
  | .li => .li (fieldDest w) (fieldImm w)

/-- `decode(w)` of 30_encoding.md R78, with OPCODE_MAP as its argument (R74): total, and invalid
exactly for the opcodes 14 and 15 (R77). -/
def decodeWith (m : OpcodeMap) (w : Word) : Decoded :=
  if h : (fieldOp w).toNat < 14 then .instr (instrOf (m ⟨(fieldOp w).toNat, h⟩) w)
  else .invalid (fieldOp w)

/-- The decoder under the reference OPCODE_MAP (30_encoding.md R74, R78). -/
def decode (w : Word) : Decoded := decodeWith opcodeMap w

/-- The operation of an instruction. -/
def Instr.op : Instr → Op
  | .cmov _ _ _ => .cmov
  | .sload _ _ _ => .sload
  | .sstore _ _ _ => .sstore
  | .add _ _ _ => .add
  | .mul _ _ _ => .mul
  | .div _ _ _ => .div
  | .nand _ _ _ => .nand
  | .halt => .halt
  | .map _ _ => .map
  | .unmap _ => .unmap
  | .out _ => .out
  | .inp _ => .inp
  | .loadp _ _ => .loadp
  | .li _ _ => .li

/-- enc(op, A, B, C) = op * 2^28 + A * 2^6 + B * 2^3 + C (30_encoding.md R84). -/
def encodeRRR (op : Fin 14) (a b c : Reg) : Word :=
  BitVec.ofNat 32 (op.val * 2 ^ 28 + a.val * 2 ^ 6 + b.val * 2 ^ 3 + c.val)

/-- The word of a load immediate: op * 2^28 + a * 2^25 + imm (30_encoding.md R84). -/
def encodeLI (op : Fin 14) (a : Reg) (imm : Imm) : Word :=
  BitVec.ofNat 32 (op.val * 2 ^ 28 + a.val * 2 ^ 25 + imm.toNat)

/-- The encoder of 30_encoding.md R84 under a numbering of the operations, unused fields 0. -/
def encodeWith (num : Op → Fin 14) (i : Instr) : Word :=
  match i with
  | .cmov a b c => encodeRRR (num .cmov) a b c
  | .sload a b c => encodeRRR (num .sload) a b c
  | .sstore a b c => encodeRRR (num .sstore) a b c
  | .add a b c => encodeRRR (num .add) a b c
  | .mul a b c => encodeRRR (num .mul) a b c
  | .div a b c => encodeRRR (num .div) a b c
  | .nand a b c => encodeRRR (num .nand) a b c
  | .halt => encodeRRR (num .halt) 0 0 0
  | .map b c => encodeRRR (num .map) 0 b c
  | .unmap c => encodeRRR (num .unmap) 0 0 c
  | .out c => encodeRRR (num .out) 0 0 c
  | .inp c => encodeRRR (num .inp) 0 0 c
  | .loadp b c => encodeRRR (num .loadp) 0 b c
  | .li a imm => encodeLI (num .li) a imm

/-- The word of an instruction under the reference numbering (30_encoding.md R84). -/
def encode (i : Instr) : Word := encodeWith opcodeOf i

/-- The instruction the decoder reads from an opcode-table word of nbits bits, every higher bit 0;
`none` where the decoder answers an invalid opcode. The machine's instruction is one 32-bit word
(30_encoding.md R70), so the word is the number itself. -/
def decodeTableWord (nbits w : Nat) : Option Instr :=
  match decode (BitVec.ofNat 32 (w % 2 ^ nbits)) with
  | .instr i => some i
  | .invalid _ => none

end Sys2Proof
end

