-- ==== Sys2Proof/Machine/Operands.lean ====
section
/-! DEFINITION. Operands: register access, which registers an instruction reads and writes
(spec/10_state.md R21), and the widenings and narrowings of operand values. The one data addressing
mode is an identifier and an offset, each whole from a register (spec/41_segment_ops.md R124). -/

namespace Sys2Proof.Machine

/-- Read x[i] (10_state.md R20, 00_scope.md R9). A meaning reads all its operands from the state it
is given, before any write (00_scope.md R10). -/
def State.reg (s : State) (i : Reg) : Word := s.regs[i]

/-- Write x[i]; every register is writable and none is hardwired (10_state.md R20). -/
def State.setReg (s : State) (i : Reg) (v : Word) : State := { s with regs := s.regs.set i v }

/-- The immediate of LI, zero-extended (30_encoding.md R75). -/
def immValue (imm : Imm) : Word := imm.setWidth 32

/-- zext_32 of an input byte (43_io.md R141). -/
def byteValue (b : Byte) : Word := b.setWidth 32

/-- The sentinel IN writes at end of stream, "the all-ones 32-bit value" (43_io.md R141). -/
def eosValue : Word := 0xFFFFFFFF#32

/-- v[7:0], the byte OUT emits (43_io.md R140). -/
def lowByte (v : Word) : Byte := extract v 8 0

/-- The value IN writes for an answer of the input port (43_io.md R141). -/
def answerValue : InputAnswer → Word
  | .byte b => byteValue b
  | .eos => eosValue

/-- The registers an instruction reads (10_state.md R21). -/
def readRegs : Instr → List Reg
  | .cmov _ b c => [b, c]
  | .sload _ b c => [b, c]
  | .sstore a b c => [a, b, c]
  | .add _ b c => [b, c]
  | .mul _ b c => [b, c]
  | .div _ b c => [b, c]
  | .nand _ b c => [b, c]
  | .halt => []
  | .map _ c => [c]
  | .unmap c => [c]
  | .out c => [c]
  | .inp _ => []
  | .loadp b c => [b, c]
  | .li _ _ => []

/-- The registers an instruction may write (10_state.md R21). -/
def writtenRegs : Instr → List Reg
  | .cmov a _ _ => [a]
  | .sload a _ _ => [a]
  | .sstore _ _ _ => []
  | .add a _ _ => [a]
  | .mul a _ _ => [a]
  | .div a _ _ => [a]
  | .nand a _ _ => [a]
  | .halt => []
  | .map b _ => [b]
  | .unmap _ => []
  | .out _ => []
  | .inp c => [c]
  | .loadp _ _ => []
  | .li a _ => [a]

end Sys2Proof.Machine
end

