-- ==== Sys2Proof/Machine/Ops.lean ====
section
/-! DEFINITION. The named operations the meanings and the step share: field updates, taking a fault,
fetch, the segment manager (spec/20_memory.md R55 to R58) and the ports' core side. -/

namespace Sys2Proof.Machine

/-! ### Field updates -/

/-- pc <- t (00_scope.md R9). -/
def State.setPc (s : State) (t : Word) : State := { s with pc := t }

/-- pc <- pc + 1, the pc of every completing instruction but LOADP and HALT (10_state.md R25). In 32
bits; it wraps in no state a fetch can come from (R26, log 23). -/
def State.advance (s : State) : State := s.setPc (s.pc + 1#32)

/-- Replace the segment table. -/
def State.setMem (s : State) (m : Memory) : State := { s with mem := m }

/-- Replace the free list. -/
def State.setFree (s : State) (l : List Word) : State := { s with free := l }

/-- Replace the next-fresh-identifier counter. -/
def State.setNextId (s : State) (n : Nat) : State := { s with nextId := n }

/-- Replace the run status. -/
def State.setStatus (s : State) (t : Status) : State := { s with status := t }

/-- Replace the waiting-input bit. -/
def State.setWaiting (s : State) (b : Bool) : State := { s with waitingInput := b }

/-- Replace the host's side of the input port. -/
def State.setInput (s : State) (p : InputPort) : State := { s with input := p }

/-- OutWrite(b): append one byte to the output (10_state.md R42). -/
def State.emit (s : State) (b : Byte) : State := { s with out := s.out ++ [b] }

/-! ### Fetch -/

/-- The word at segment 0, offset pc, as segment 0 stands now; none when pc >= Len(0)
(30_encoding.md R80, 20_memory.md R67). -/
def State.fetch (s : State) : Option Word := s.mem.wordAt 0#32 s.pc

/-! ### Taking a fault -/

/-- The kind of a fault, by what made it (60_exceptions.md R161). -/
def FaultCause.kind : FaultCause → FaultKind
  | .fetch => .boundsError
  | .opcode _ => .decodeError
  | .unmappedId => .boundsError
  | .offsetOutOfRange => .boundsError
  | .unmapSegment0 => .boundsError
  | .divideByZero => .arithmeticError
  | .outputRange => .ioError
  | .storage => .resourceExhausted
  | .ids => .resourceExhausted

/-- The codes of 60_exceptions.md R161. -/
def FaultKind.code : FaultKind → Nat
  | .decodeError => 1
  | .boundsError => 2
  | .arithmeticError => 3
  | .ioError => 4
  | .resourceExhausted => 5

/-- The fault record of a fault taken in state s (60_exceptions.md R162). pc is the offset of the
faulting instruction's own word (10_state.md R24), so the word is the one fetched there, and none for
a fetch fault. DEDUCED, log 7. -/
def State.record (s : State) (c : FaultCause) : FaultRecord where
  kind := c.kind
  code := c.kind.code
  pc := s.pc
  word := s.fetch
  cause := c

/-- The state a fault leaves: the status is Faulted and nothing else changes (60_exceptions.md R162,
R166). There is no handler to go to and no return (R160). -/
def State.faulted (s : State) (c : FaultCause) : State := s.setStatus (.faulted (s.record c))

/-- `raise`: taking a fault, the one operation every fault goes through (60_exceptions.md R162). -/
def raise (s : State) (c : FaultCause) : Result := .next (s.faulted c)

/-- `halt` (60_exceptions.md R170). -/
def State.halt (s : State) : State := s.setStatus .halted

/-! ### The input port -/

/-- InRead() (10_state.md R41): the next answer and the port after it, or none while the host has not
answered. After the listed answers the port follows its INPUT_MODEL (92_eei_decisions.md D10). -/
def InputPort.read (p : InputPort) : Option (InputAnswer × InputPort) :=
  match p.answers, p.after with
  | a :: rest, t => some (a, ⟨rest, t, p.consumed ++ [a]⟩)
  | [], .eosForever => some (.eos, ⟨[], .eosForever, p.consumed ++ [.eos]⟩)
  | [], .never => none

/-- The host has not answered: a request made now would wait (10_state.md R33). -/
def InputPort.silent (p : InputPort) : Bool := p.read.isNone

/-! ### Whether there is a step -/

/-- Why the core has no step in s, or none when it has one: the status is not Running, or it waits on
the input port and no answer is there (30_encoding.md R79, R83; 60_exceptions.md R171; 10_state.md
R33). -/
def State.noStep? (s : State) : Option Fault :=
  match s.status with
  | .halted => some .halted
  | .faulted f => some (.faulted f)
  | .running => if s.waitingInput && s.input.silent then some .waitingForInput else none

/-! ### The segment manager -/

/-- A total of mapped words is over a bounded CAP_WORDS (20_memory.md R55, R69). -/
def State.overCap (s : State) (total : Nat) : Bool :=
  match s.params.capWords with
  | none => false
  | some cap => decide (cap < total)

/-- The identifier SegMap issues: the most recently released one, else the counter's value
(20_memory.md R55). -/
def State.issuedId (s : State) : Word :=
  match s.free with
  | id :: _ => id
  | [] => BitVec.ofNat 32 s.nextId

/-- SegMap(n) (20_memory.md R55, R56): the storage check, then the head of the free list or a fresh
identifier, then the zero-filled segment. Answers the identifier and the new state. -/
def State.segMap (s : State) (n : Word) : Except FaultCause (Word × State) :=
  if s.overCap (s.mem.totalWords + n.toNat) then .error .storage
  else
    match s.free with
    | _ :: rest =>
      .ok (s.issuedId, (s.setFree rest).setMem (s.mem.put s.issuedId (Segment.zeros n.toNat)))
    | [] =>
      if 2 ^ 32 - 1 < s.nextId then .error .ids
      else
        .ok (s.issuedId,
          (s.setNextId (s.nextId + 1)).setMem (s.mem.put s.issuedId (Segment.zeros n.toNat)))

/-- SegUnmap(id) (20_memory.md R57): id = 0 is checked before Mapped (60_exceptions.md R164). -/
def State.segUnmap (s : State) (id : Word) : Except FaultCause State :=
  if isZero id then .error .unmapSegment0
  else if s.mem.mapped id then .ok ((s.setMem (s.mem.remove id)).setFree (id :: s.free))
  else .error .unmappedId

/-- SegReplace0(id) (20_memory.md R58): Mapped is checked before storage (60_exceptions.md R164); the
copy is a value of its own, so later writes to either segment leave the other alone. -/
def State.segReplace0 (s : State) (id : Word) : Except FaultCause State :=
  match s.mem.find id with
  | none => .error .unmappedId
  | some g =>
    if s.overCap (s.mem.totalWords - s.mem.len 0#32 + g.len) then .error .storage
    else .ok (s.setMem (s.mem.put 0#32 g))

/-! ### Placing one instruction word (for State.withFetchWord) -/

/-- The segment with word w at offset off, lengthened by zero words where off is past its end. -/
def Segment.place (g : Segment) (off : Nat) (w : Word) : Segment :=
  ({ g with len := max g.len (off + 1) } : Segment).write off w

/-- s, running, with w at offset pc of segment 0: see State.withFetchWord (log 13). -/
def State.placeWord (s : State) (w : Word) : State :=
  let g := (s.mem.find 0#32).getD (Segment.zeros 0)
  ((s.setMem (s.mem.put 0#32 (g.place s.pc.toNat w))).setStatus .running).setWaiting false

end Sys2Proof.Machine
end

