-- ==== Sys2Proof/Machine/Arith.lean ====
section
/-! DEFINITION. The register and arithmetic operations (spec/40_register_ops.md): CMOV, ADD, MUL, DIV,
NAND, LI. -/

namespace Sys2Proof.Machine

/-- The shape of an operation that writes one register and advances (10_state.md R25). -/
def writeAndAdvance (s : State) (i : Reg) (v : Word) : Result := .next ((s.setReg i v).advance)

/-- CMOV (40_register_ops.md R100). -/
def execCmov (a b c : Reg) (s : State) : Result :=
  if isZero (s.reg c) then .next s.advance else writeAndAdvance s a (s.reg b)

/-- ADD (40_register_ops.md R101): BitVec addition is addition modulo 2^32. -/
def execAdd (a b c : Reg) (s : State) : Result := writeAndAdvance s a (s.reg b + s.reg c)

/-- MUL (40_register_ops.md R102): BitVec multiplication keeps the low 32 bits of the product. -/
def execMul (a b c : Reg) (s : State) : Result := writeAndAdvance s a (s.reg b * s.reg c)

/-- DIV (40_register_ops.md R103): BitVec division is unsigned and truncates. -/
def execDiv (a b c : Reg) (s : State) : Result :=
  if isZero (s.reg c) then raise s .divideByZero else writeAndAdvance s a (s.reg b / s.reg c)

/-- NAND (40_register_ops.md R104). -/
def execNand (a b c : Reg) (s : State) : Result := writeAndAdvance s a (~~~(s.reg b &&& s.reg c))

/-- LI (40_register_ops.md R105). -/
def execLi (a : Reg) (imm : Imm) (s : State) : Result := writeAndAdvance s a (immValue imm)

end Sys2Proof.Machine
end

