-- ==== Sys2Proof/Machine/Control.lean ====
section
/-! DEFINITION. Program control and halt: LOADP (spec/42_program_control.md R135) and HALT
(spec/44_halt_invalid.md R150). -/

namespace Sys2Proof.Machine

/-- LOADP (42_program_control.md R135): with identifier 0 a plain jump that never faults; no check is
made of the target. -/
def execLoadp (b c : Reg) (s : State) : Result :=
  if isZero (s.reg b) then .next (s.setPc (s.reg c))
  else
    match s.segReplace0 (s.reg b) with
    | .ok t => .next (t.setPc (s.reg c))
    | .error e => raise s e

/-- HALT (44_halt_invalid.md R150): the status becomes Halted and pc is unchanged (10_state.md R25). -/
def execHalt (s : State) : Result := .next s.halt

end Sys2Proof.Machine
end

