-- ==== Sys2Proof/Machine/InOut.lean ====
section
/-! DEFINITION. Input and output (spec/43_io.md): OUT, IN. -/

namespace Sys2Proof.Machine

/-- OUT (43_io.md R140): on the fault no byte is emitted. -/
def execOut (c : Reg) (s : State) : Result :=
  if aboveByte (s.reg c) then raise s .outputRange
  else .next ((s.emit (lowByte (s.reg c))).advance)

/-- IN (43_io.md R141): the request is answered and the instruction completes, or the host has no
answer yet and the core begins to wait, everything else unchanged (10_state.md R33, 60_exceptions.md
R178; log 11). An answer ends the wait. -/
def execIn (c : Reg) (s : State) : Result :=
  match s.input.read with
  | some (a, p) => .next ((((s.setInput p).setWaiting false).setReg c (answerValue a)).advance)
  | none => .next (s.setWaiting true)

end Sys2Proof.Machine
end

