-- ==== Sys2Proof/Machine/SegmentOps.lean ====
section
/-! DEFINITION. The memory operations (spec/41_segment_ops.md): SLOAD, SSTORE, MAP, UNMAP. -/

namespace Sys2Proof.Machine

/-- SLOAD (41_segment_ops.md R120). -/
def execSload (a b c : Reg) (s : State) : Result :=
  match s.mem.segRead (s.reg b) (s.reg c) with
  | .ok v => .next ((s.setReg a v).advance)
  | .error e => raise s e

/-- SSTORE (41_segment_ops.md R121). -/
def execSstore (a b c : Reg) (s : State) : Result :=
  match s.mem.segWrite (s.reg a) (s.reg b) (s.reg c) with
  | .ok m => .next ((s.setMem m).advance)
  | .error e => raise s e

/-- MAP (41_segment_ops.md R122): the length is read before the identifier is written (B = C). -/
def execMap (b c : Reg) (s : State) : Result :=
  match s.segMap (s.reg c) with
  | .ok (id, t) => .next ((t.setReg b id).advance)
  | .error e => raise s e

/-- UNMAP (41_segment_ops.md R123). -/
def execUnmap (c : Reg) (s : State) : Result :=
  match s.segUnmap (s.reg c) with
  | .ok t => .next t.advance
  | .error e => raise s e

end Sys2Proof.Machine
end

