-- ==== Sys2Proof/Machine/Step.lean ====
section
/-! DEFINITION. One step: fetch, decode, dispatch (spec/30_encoding.md R79). -/

namespace Sys2Proof.Machine

/-- `step()` of 30_encoding.md R79 with OPCODE_MAP as its argument (R74). The order of the checks is
60_exceptions.md R164's: no step at all, then fetch, then decode, then the instruction's own. -/
def stepWith (m : OpcodeMap) (s : State) : Host.Outcome State Fault Refusal :=
  match s.noStep? with
  | some f => .fault f
  | none =>
    match s.fetch with
    | none => raise s .fetch
    | some w =>
      match decodeWith m w with
      | .invalid op => raise s (.opcode op)
      | .instr i => exec i s

/-- One step of the machine under the reference OPCODE_MAP (30_encoding.md R74, R79). -/
def step (s : State) : Host.Outcome State Fault Refusal := stepWith opcodeMap s

/-- s with the instruction word w stored where step fetches next: offset pc of segment 0. What the
fetch needs and no more: segment 0 exists and is long enough, the status is Running, and no input
request is outstanding (log 13). -/
def State.withFetchWord (s : State) (nbits w : Nat) : State :=
  s.placeWord (BitVec.ofNat 32 (w % 2 ^ nbits))

end Sys2Proof.Machine
end

