-- ==== Sys2Proof/Machine/Assembler.lean ====
section
/-! DEFINITION. The spec's assembly syntax and pseudo-instructions (spec/30_encoding.md R84, R85), as a
function from text to words. It is the notation of the spec's test vectors; no step uses it. What R84
does not say of the text is a DESIGN CHOICE, log 18: blanks, the form of a number and of a register name,
the letters of a label, how many labels a line may have and where they may stand. -/

namespace Sys2Proof.Machine

/-- The pseudo-instructions of 30_encoding.md R85. -/
inductive Pseudo where
  | nop
  | not (a b : Reg)
  | and (a b c : Reg)
  | jmp (z c : Reg)
deriving DecidableEq, Repr

/-- Their expansions (30_encoding.md R85). -/
def Pseudo.expand : Pseudo → List Instr
  | .nop => [.cmov 0 0 0]
  | .not a b => [.nand a b b]
  | .and a b c => [.nand a b c, .nand a a a]
  | .jmp z c => [.loadp z c]

/-- Why a text is refused. -/
inductive AsmTextError where
  /-- No mnemonic of R84 or pseudo-instruction of R85. -/
  | mnemonic
  /-- An operand that is no register, number or label. -/
  | operand
  /-- A label that is not a name, or stands at two places. -/
  | label
  /-- A check of WellFormed.lean refused the instruction. -/
  | instr (e : AsmError)
deriving DecidableEq, Repr

/-- A written operand before labels are resolved. -/
inductive AsmArg where
  | reg (n : Nat)
  | num (n : Nat)
  | label (name : List Char)
deriving DecidableEq, Repr

/-- One line of text: its labels, and its mnemonic and operands if it has an instruction. -/
structure AsmLine where
  labels : List (List Char)
  stmt : Option (List Char × List (List Char))
deriving DecidableEq, Repr

/-- The pieces of a text between the separators sep. -/
def splitChars (sep : Char) : List Char → List (List Char)
  | [] => [[]]
  | c :: cs =>
    if c = sep then [] :: splitChars sep cs
    else
      match splitChars sep cs with
      | [] => [[c]]
      | h :: t => (c :: h) :: t

/-- A space, tab or carriage return. -/
def isBlank (c : Char) : Bool := c = ' ' || c = '\t' || c = '\r'

/-- The text without blanks at either end. -/
def trimBlanks (l : List Char) : List Char := ((l.dropWhile isBlank).reverse.dropWhile isBlank).reverse

/-- The value of a digit in base 16, if it is one. -/
def digitValue (c : Char) : Option Nat :=
  let n := c.toNat
  if 48 ≤ n ∧ n ≤ 57 then some (n - 48)
  else if 97 ≤ n ∧ n ≤ 102 then some (n - 87)
  else if 65 ≤ n ∧ n ≤ 70 then some (n - 55)
  else none

/-- The number the digits spell in the base, continuing from acc. Leading zeros are read as zeros
(DESIGN CHOICE, log 18). -/
def digitsValue (base : Nat) : Nat → List Char → Option Nat
  | acc, [] => some acc
  | acc, c :: cs =>
    match digitValue c with
    | some d => if d < base then digitsValue base (acc * base + d) cs else none
    | none => none

/-- An immediate "in decimal or as 0x hexadecimal" (30_encoding.md R84). -/
def parseNumber : List Char → Option Nat
  | '0' :: 'x' :: c :: cs => digitsValue 16 0 (c :: cs)
  | c :: cs => digitsValue 10 0 (c :: cs)
  | [] => none

/-- A letter, digit or underscore. -/
def isNameChar (c : Char) : Bool := c.isAlpha || c.isDigit || c = '_'

/-- A name a label may have: a letter or underscore, then letters, digits and underscores. -/
def isName : List Char → Bool
  | [] => false
  | c :: cs => isNameChar c && !c.isDigit && cs.all isNameChar

/-- One operand: a register, a number or a label. R84 writes registers r0 to r7; here `r` and any
decimal digits name a register, leading zeros included, so r07 is r7 and r000 is r0, while r8 is refused
by the check of WellFormed.lean (DESIGN CHOICE, log 18). -/
def parseArg (l : List Char) : Option AsmArg :=
  match parseNumber l with
  | some n => some (.num n)
  | none =>
    match l with
    | 'r' :: c :: cs =>
      match digitsValue 10 0 (c :: cs) with
      | some n => some (.reg n)
      | none => if isName l then some (.label l) else none
    | _ => if isName l then some (.label l) else none

/-- One line: the comment from `;` dropped, the labels before each `:` taken, then the mnemonic and
the operands between commas (30_encoding.md R84). R84 gives a line one optional label; here a line may
have any number of them (`a: b: HALT`), each standing for the same offset, and a line of labels alone,
or an empty one, is no instruction (DESIGN CHOICE, log 18). -/
def parseLine (l : List Char) : AsmLine :=
  let pieces := (splitChars ':' (l.takeWhile (· ≠ ';'))).map trimBlanks
  let body := pieces.getLast?.getD []
  let rest := trimBlanks (body.dropWhile (fun c => !isBlank c))
  { labels := pieces.dropLast
    stmt :=
      if body.isEmpty then none
      else some (body.takeWhile (fun c => !isBlank c),
        if rest.isEmpty then [] else (splitChars ',' rest).map trimBlanks) }

/-- The operation a mnemonic names (00_scope.md R11). -/
def mnemonicOp (l : List Char) : Option Op :=
  (([("CMOV", .cmov), ("SLOAD", .sload), ("SSTORE", .sstore), ("ADD", .add), ("MUL", .mul),
    ("DIV", .div), ("NAND", .nand), ("HALT", .halt), ("MAP", .map), ("UNMAP", .unmap),
    ("OUT", .out), ("IN", .inp), ("LOADP", .loadp), ("LI", .li)] : List (String × Op)).find?
      fun p => p.1.toList == l).map Prod.snd

/-- The words a mnemonic takes: AND takes two, every other one (30_encoding.md R84, R85). -/
def stmtWords (mnemonic : List Char) : Nat := if mnemonic == "AND".toList then 2 else 1

/-- The labels of the lines, each with "the word offset of the next instruction in segment 0"
(30_encoding.md R84), the first line's instruction standing at offset k. -/
def labelsFrom : Nat → List AsmLine → List (List Char × Nat)
  | _, [] => []
  | k, line :: rest =>
    line.labels.map (fun n => (n, k)) ++
      labelsFrom (match line.stmt with | some (m, _) => k + stmtWords m | none => k) rest

/-- An operand with its label resolved. -/
def resolveArg (labels : List (List Char × Nat)) (l : List Char) : Except AsmTextError AsmOperand :=
  match parseArg l with
  | some (.reg n) => .ok (.reg n)
  | some (.num n) => .ok (.num n)
  | some (.label name) =>
    match labels.find? (fun p => p.1 == name) with
    | some p => .ok (.num p.2)
    | none => .error .operand
  | none => .error .operand

/-- A check of WellFormed.lean as a text error. -/
def asmChecked {α : Type} : Except AsmError α → Except AsmTextError α
  | .ok v => .ok v
  | .error e => .error (.instr e)

/-- The pseudo-instruction a mnemonic and operands stand for, if it names one (30_encoding.md R85). -/
def pseudoOf (m : List Char) (args : List AsmOperand) : Option (Except AsmError Pseudo) :=
  if m == "NOP".toList then some (match args with
    | [] => .ok .nop
    | _ => .error .operands)
  else if m == "NOT".toList then some (match args with
    | [.reg a, .reg b] => return .not (← asmReg a) (← asmReg b)
    | _ => .error .operands)
  else if m == "AND".toList then some (match args with
    | [.reg a, .reg b, .reg c] => return .and (← asmReg a) (← asmReg b) (← asmReg c)
    | _ => .error .operands)
  else if m == "JMP".toList then some (match args with
    | [.reg z, .reg c] => return .jmp (← asmReg z) (← asmReg c)
    | _ => .error .operands)
  else none

/-- The instructions of one statement. -/
def assembleStmt (labels : List (List Char × Nat)) (m : List Char) (args : List (List Char)) :
    Except AsmTextError (List Instr) := do
  let ops ← args.mapM (resolveArg labels)
  match mnemonicOp m, pseudoOf m ops with
  | some op, _ => return [← asmChecked (AsmInstr.check ⟨op, ops⟩)]
  | none, some p => return (← asmChecked p).expand
  | none, none => .error .mnemonic

/-- The instructions of the lines. -/
def assembleLines (labels : List (List Char × Nat)) : List AsmLine → Except AsmTextError (List Instr)
  | [] => .ok []
  | line :: rest => do
    let here ← match line.stmt with
      | some (m, args) => assembleStmt labels m args
      | none => .ok []
    return here ++ (← assembleLines labels rest)

/-- The instructions of a text (30_encoding.md R84, R85). -/
def assemble (text : List Char) : Except AsmTextError (List Instr) :=
  let lines := (splitChars '\n' text).map parseLine
  let labels := labelsFrom 0 lines
  if labels.all (fun p => isName p.1) && (labels.map Prod.fst).Nodup then assembleLines labels lines
  else .error .label

end Sys2Proof.Machine
end

