-- ==== Sys2Proof/Machine/Ports.lean ====
section
/-! DEFINITION. The core's four ports as the host sees them (spec/10_state.md R40 to R44): loading a
program and resetting, answering an input request, the status port, and what a claim may rest on. -/

namespace Sys2Proof.Machine

/-- One word from 4 consecutive bytes in big-endian order, the first byte in bits 31:24
(10_state.md R40, 20_memory.md R60). -/
def beWord (b0 b1 b2 b3 : Byte) : Word := b0 ++ b1 ++ b2 ++ b3

/-- The words of a byte source; none when its length is not a multiple of 4 (10_state.md R40). -/
def wordsOfBytes : List Byte → Option (List Word)
  | [] => some []
  | b0 :: b1 :: b2 :: b3 :: rest =>
    match wordsOfBytes rest with
    | some ws => some (beWord b0 b1 b2 b3 :: ws)
    | none => none
  | _ => none

/-- Why the core does not start (70_reset_and_hazards.md R181). These are failures of the host's
loader, not Faulted runs. -/
inductive LoadError where
  /-- The byte length is not a multiple of 4. -/
  | byteLength
  /-- More than PROGRAM_MAX_WORDS words. -/
  | tooLong
  /-- More than a bounded CAP_WORDS words. -/
  | overCapacity
deriving DecidableEq, Repr

/-- The state after reset with the program prog in segment 0 (70_reset_and_hazards.md R180), for an
implementation with parameters p and a host that will give the answers listed and then do as tail
says. -/
def bootState (p : Params) (answers : List InputAnswer) (tail : InputTail) (prog : List Word) : State where
  regs := Vector.replicate 8 0
  pc := 0
  mem := [(0, Segment.ofWords prog)]
  free := []
  nextId := 1
  status := .running
  waitingInput := false
  out := []
  input := ⟨answers, tail, []⟩
  params := p

/-- A program of n words fits a bounded CAP_WORDS (20_memory.md R69). -/
def fitsCap (p : Params) (n : Nat) : Bool :=
  match p.capWords with
  | none => true
  | some cap => decide (n ≤ cap)

/-- Reset with a word sequence, or the refusal of 70_reset_and_hazards.md R181. The state a reset
discards (R182) is no argument of it. -/
def resetWith (p : Params) (answers : List InputAnswer) (tail : InputTail) (prog : List Word) :
    Except LoadError State :=
  if Config.programMaxWords < prog.length then .error .tooLong
  else if fitsCap p prog.length then .ok (bootState p answers tail prog)
  else .error .overCapacity

/-- Reset with a byte source: the host's loader of 10_state.md R40, then the reset. -/
def resetWithBytes (p : Params) (answers : List InputAnswer) (tail : InputTail) (bytes : List Byte) :
    Except LoadError State :=
  match wordsOfBytes bytes with
  | none => .error .byteLength
  | some prog => resetWith p answers tail prog

/-- The host gives one more answer to the input port, ending a wait if there is one (10_state.md R41).
It changes nothing but the port (R44). -/
def State.hostAnswer (s : State) (a : InputAnswer) : State :=
  s.setInput { s.input with answers := s.input.answers ++ [a] }

/-- What the status port presents (10_state.md R43). -/
inductive StatusReport where
  | running
  | halted (code : Nat)
  | faulted (code : Nat) (f : FaultRecord)
deriving DecidableEq, Repr

/-- The status port (10_state.md R43): the run status, with EXIT_HALT or EXIT_FAULT in a terminal
state and the fault record in Faulted. A wait for input shows as Running (R33). -/
def State.statusPort (s : State) : StatusReport :=
  match s.status with
  | .running => .running
  | .halted => .halted s.params.exitHalt
  | .faulted f => .faulted s.params.exitFault f

/-- The three things a claim about the hardware may rest on (10_state.md R44). -/
structure Observation where
  status : StatusReport
  out : List Byte
  consumed : List InputAnswer
deriving DecidableEq, Repr

/-- What the host observes of a state (10_state.md R44). -/
def State.observe (s : State) : Observation := ⟨s.statusPort, s.out, s.input.consumed⟩

end Sys2Proof.Machine
end

