-- ==== Sys2Proof/Safety.lean ====
section
/-! DEFINITION. The terms claims use: the invariants of every reachable state, a run, what a safe run
is, and what it means that a step leaves a part of the state alone. -/

namespace Sys2Proof.Machine

/-- The invariant of the segment manager (spec/10_state.md R31, with R28, R29, R30): the identifiers 1
to next-1 are partitioned into the mapped non-zero ones and the free ones, each free one is listed
once, none from next on is mapped or free, and 0 is mapped and never free. -/
structure ManagerInv (s : State) : Prop where
  /-- "0 is mapped" (R31, R28). -/
  zero_mapped : s.mem.mapped 0#32 = true
  /-- "... and never on the free list" (R31, R29). -/
  zero_not_free : 0#32 ∉ s.free
  /-- "each identifier appears on the free list at most once" (R31). -/
  free_nodup : s.free.Nodup
  /-- The counter starts at 1 and never decreases (R30). -/
  next_pos : 1 ≤ s.nextId
  /-- An identifier is issued from it only while it is at most 2^32-1 (R30). -/
  next_le : s.nextId ≤ 2 ^ 32
  /-- The identifiers below next are the mapped and the free ones (R31). -/
  covers : ∀ id : Word, id ≠ 0#32 → ((s.mem.mapped id = true ∨ id ∈ s.free) ↔ id.toNat < s.nextId)
  /-- No identifier is both (R31). -/
  disjoint : ∀ id : Word, id ∈ s.free → s.mem.mapped id = false

/-- The invariant of every reachable state. -/
structure Inv (s : State) : Prop where
  /-- The memory is in its canonical form, with every length at most 2^32-1 (20_memory.md R48). -/
  mem_wf : s.mem.wf
  /-- The segment manager's invariant (10_state.md R31). -/
  manager : ManagerInv s
  /-- The mapped words fit a bounded CAP_WORDS (20_memory.md R69). -/
  cap : ∀ c : Nat, s.params.capWords = some c → s.mem.totalWords ≤ c
  /-- A core that waits for input is Running at an IN (10_state.md R33). -/
  waiting : s.waitingInput = true → s.status = .running ∧
    ∃ (w : Word) (c : Reg), s.fetch = some w ∧ decode w = .instr (.inp c)

/-- s' is reached from s by some number of steps. -/
inductive Reaches : State → State → Prop where
  | refl (s : State) : Reaches s s
  | tail {s t u : State} : Reaches s t → step t = .next u → Reaches s u

/-- s' is reached from s by some number of steps and of answers the host gives between them
(10_state.md R41, R44): a run as the host sees it. Every run of Reaches is one. -/
inductive Runs : State → State → Prop where
  | refl (s : State) : Runs s s
  | step {s t u : State} : Runs s t → Machine.step t = .next u → Runs s u
  | answer {s t : State} (e : InputAnswer) : Runs s t → Runs s (t.hostAnswer e)

/-- The run has ended (60_exceptions.md R172). -/
def State.ended (s : State) : Prop := s.status ≠ .running

/-- A state of a safe run: no fault has ended it (60_exceptions.md R160). -/
def State.unfaulted (s : State) : Prop := ∀ f : FaultRecord, s.status ≠ .faulted f

/-- The two states have the same segment table, free list and counter. -/
structure SameManager (s t : State) : Prop where
  mem : t.mem = s.mem
  free : t.free = s.free
  nextId : t.nextId = s.nextId

/-- Every segment but that of one identifier is the same in both states: mapped or not, its length and
each of its words (20_memory.md R47). -/
def SameSegmentsBut (id : Word) (s t : State) : Prop :=
  ∀ j : Word, j ≠ id → t.mem.mapped j = s.mem.mapped j ∧ t.mem.len j = s.mem.len j ∧
    ∀ off : Word, t.mem.wordAt j off = s.mem.wordAt j off

/-- The two states have the same status, waiting bit, output, input port and parameters. -/
structure SamePorts (s t : State) : Prop where
  status : t.status = s.status
  waiting : t.waitingInput = s.waitingInput
  out : t.out = s.out
  input : t.input = s.input
  params : t.params = s.params

/-- Every register but those of the list is the same in both states. -/
def SameRegsBut (rs : List Reg) (s t : State) : Prop := ∀ r : Reg, r ∉ rs → t.reg r = s.reg r

/-- t is s after an instruction that writes v to register a, advances pc by one (10_state.md R25) and
changes nothing else (30_encoding.md R81). -/
structure WritesReg (s t : State) (a : Reg) (v : Word) : Prop where
  value : t.reg a = v
  others : SameRegsBut [a] s t
  pc : t.pc = s.pc + 1#32
  manager : SameManager s t
  ports : SamePorts s t

/-- t differs from s in nothing but the status: what a fault may change (60_exceptions.md R162). -/
structure OnlyStatusChanged (s t : State) : Prop where
  regs : ∀ r : Reg, t.reg r = s.reg r
  pc : t.pc = s.pc
  manager : SameManager s t
  waiting : t.waitingInput = s.waitingInput
  out : t.out = s.out
  input : t.input = s.input
  params : t.params = s.params

/-- The instruction ends the run Faulted with a fault of this kind (60_exceptions.md R161). -/
def Faults (i : Instr) (s : State) (k : FaultKind) : Prop :=
  ∃ (t : State) (f : FaultRecord), exec i s = .next t ∧ t.status = .faulted f ∧ f.kind = k

/-- The instruction ends the run Faulted with this cause recorded (60_exceptions.md R162, R164). -/
def FaultsFor (i : Instr) (s : State) (c : FaultCause) : Prop :=
  ∃ (t : State) (f : FaultRecord), exec i s = .next t ∧ t.status = .faulted f ∧ f.cause = c

/-- The two states differ in the registers alone. -/
def SameButRegs (s t : State) : Prop := t = { s with regs := t.regs }

/-- Each instruction in turn, from s, each having to answer a next state. For statements about short
sequences of instructions; fetching is not part of it. -/
def execAll : List Instr → State → Result
  | [], s => .next s
  | i :: is, s =>
    match exec i s with
    | .next t => execAll is t
    | .fault f => .fault f
    | .refused r => .refused r

end Sys2Proof.Machine
end

