-- ==== Sys2Proof/Certificates/Slice0/Obligations.lean ====
section
/-! DEFINITION. The statements for the provers, from the numbered rules of spec/. Where a docstring
says "the spec's decision", the clause rests on a choice the spec marks as its own (or on the log entry
it names), and the statement's basis is 'derived'. -/

open Sys2Proof Sys2Proof.Machine

/-! ### Encoding -/

/-- 30_encoding.md R78, R84: decoding an encoded instruction gives it back, for every instruction, with
every operand at every value, under EVERY numbering of the operations (OPCODE_MAP, R74), and so for the
machine's own decoder and encoder (its numbers are the spec's decision D1, log 2). -/
def Obligations.DecodeReadsBackEncode : Prop :=
  (∀ (m : OpcodeMap) (num : Op → Fin 14), (∀ k : Op, m (num k) = k) →
    ∀ i : Instr, decodeWith m (encodeWith num i) = .instr i) ∧
  ∀ i : Instr, decode (encode i) = .instr i

/-- 30_encoding.md R77: a word is illegal exactly when its opcode is 14 or 15, whatever the numbering,
and there are 2 x 2^28 = 2^29 such words. (That no other bit matters rests on the spec's decision D2,
log 3.) -/
def Obligations.IllegalWordsAreOpcodes14And15 : Prop :=
  (∀ (m : OpcodeMap) (w : Word),
    (∃ op, decodeWith m w = .invalid op) ↔ (fieldOp w = 14#4 ∨ fieldOp w = 15#4)) ∧
  ((Finset.range (2 ^ 32)).filter
    (fun n => ∃ op, decode (BitVec.ofNat 32 n) = .invalid op)).card = 2 ^ 29

/-- The bits each operation uses besides its opcode: the table of 30_encoding.md R76. -/
def Sys2Proof.usedBits : Op → Word
  | .cmov | .sload | .sstore | .add | .mul | .div | .nand => 0x000001FF
  | .halt => 0x00000000
  | .map | .loadp => 0x0000003F
  | .unmap | .out | .inp => 0x00000007
  | .li => 0x0FFFFFFF

/-- 30_encoding.md R76 (the spec's decision D2, log 3): two words of one operation are the same
instruction exactly when they agree on the bits that operation uses. -/
def Obligations.OnlyUsedBitsDecide : Prop :=
  ∀ (k : Op) (w w' : Word), (fieldOp w).toNat = (opcodeOf k).val → (fieldOp w').toNat = (opcodeOf k).val →
    (decode w = decode w' ↔ w &&& usedBits k = w' &&& usedBits k)

/-- 30_encoding.md R71: `extract(w, n, l) = floor(w / 2^l) mod 2^n`, and the field table: opcode 31:28,
A 8:6, B 5:3, C 2:0, destL 27:25, immediate 24:0. -/
def Obligations.ExtractReadsTheNumberedBits : Prop :=
  ∀ w : Word,
    (∀ n l : Nat, (extract w n l).toNat = w.toNat / 2 ^ l % 2 ^ n) ∧
    (fieldOp w).toNat = w.toNat / 2 ^ 28 % 16 ∧
    (fieldA w).val = w.toNat / 2 ^ 6 % 8 ∧
    (fieldB w).val = w.toNat / 2 ^ 3 % 8 ∧
    (fieldC w).val = w.toNat % 8 ∧
    (fieldDest w).val = w.toNat / 2 ^ 25 % 8 ∧
    (fieldImm w).toNat = w.toNat % 2 ^ 25

/-- Words written out from the encodings of 30_encoding.md R72 to R74 and R84 (the examples of
40_register_ops.md to 44_halt_invalid.md; opcode numbers: log 2). That 0x3FFFFE49, whose bits 27:9 are
set, is ADD r1, r1, r1 rests on the spec's decision D2 that unused bits are ignored (log 3). -/
def Obligations.ExampleWordsDecode : Prop :=
  decode 0x00000053 = .instr (.cmov 1 2 3) ∧ decode 0x10000053 = .instr (.sload 1 2 3) ∧
  decode 0x30000053 = .instr (.add 1 2 3) ∧ decode 0x70000000 = .instr .halt ∧
  decode 0x80000013 = .instr (.map 2 3) ∧ decode 0xA0000000 = .instr (.out 0) ∧
  decode 0xC0000013 = .instr (.loadp 2 3) ∧ decode 0xD7FFFFFF = .instr (.li 3 0x1FFFFFF) ∧
  decode 0x3FFFFE49 = .instr (.add 1 1 1) ∧ decode 0xE0000000 = .invalid 14

/-- 30_encoding.md R84's operand table and checks: a written instruction is accepted exactly when it is
some instruction written in the table's form, and then it is that instruction. -/
def Obligations.AcceptedFormsAreTheTable : Prop :=
  ∀ (t : AsmInstr) (i : Instr), t.check = .ok i ↔ t = i.toAsm

/-! ### One step -/

/-- 30_encoding.md R79, R81: when the core is Running and not left waiting, and the word at pc of
segment 0 decodes to an instruction, the step is that instruction's meaning in that state; nothing is
added around it. Under every OPCODE_MAP, and for the machine's own step. -/
def Obligations.StepRunsTheDecodedInstruction : Prop :=
  ∀ (m : OpcodeMap) (s : State) (w : Word) (i : Instr), s.status = .running →
    (s.waitingInput = false ∨ s.input.silent = false) → s.mem.wordAt 0#32 s.pc = some w →
    (decodeWith m w = .instr i → stepWith m s = exec i s) ∧ (decode w = .instr i → step s = exec i s)

/-- 30_encoding.md R80 (the spec's decision D3, log 4; the record is decision D5): a fetch at or past
Len(0) ends the run Faulted with a BoundsError record that holds pc and no word. -/
def Obligations.FetchPastTheEndFaults : Prop :=
  ∀ s : State, s.status = .running → (s.waitingInput = false ∨ s.input.silent = false) →
    s.mem.mapped 0#32 = true → s.mem.len 0#32 ≤ s.pc.toNat →
    ∃ t, step s = .next t ∧ t.status = .faulted ⟨.boundsError, 2, s.pc, none, .fetch⟩ ∧
      OnlyStatusChanged s t

/-- 44_halt_invalid.md R151: a word with opcode 14 or 15 at pc ends the run Faulted(DecodeError), and
no state but the status changes. -/
def Obligations.InvalidOpcodeFaults : Prop :=
  ∀ (s : State) (w : Word), s.status = .running → (s.waitingInput = false ∨ s.input.silent = false) →
    s.mem.wordAt 0#32 s.pc = some w → (fieldOp w = 14#4 ∨ fieldOp w = 15#4) →
    ∃ t f, step s = .next t ∧ t.status = .faulted f ∧ f.kind = .decodeError ∧ OnlyStatusChanged s t

/-- 60_exceptions.md R171: a Halted or Faulted core has no step, and no run from it leaves its state;
the status port tells the two apart. That `step` says "no step" with the host interface's fault outcome
is the model's choice (DEDUCED, log 6). -/
def Obligations.HaltedAndFaultedAbsorb : Prop :=
  (∀ s : State, s.ended → ∃ f, step s = .fault f) ∧
  (∀ s t : State, s.ended → Reaches s t → t = s) ∧
  (∀ (s t : State) (f : FaultRecord), s.status = .halted → t.status = .faulted f →
    s.params = t.params → ∃ x y, s.statusPort = .halted x ∧ t.statusPort = .faulted y f ∧ x ≠ y)

/-- Every instruction answers a next state in every state: none refuses and none ends in the host's
fault outcome; faults of the spec are next states (log 5), and so is an IN that begins to wait because
the host has no answer (DEDUCED from 10_state.md R33, log 11). Rests on 60_exceptions.md R162. -/
def Obligations.EveryInstructionAnswersANextState : Prop :=
  ∀ (i : Instr) (s : State), ∃ t, exec i s = .next t

/-! ### Register and arithmetic operations -/

/-- 40_register_ops.md R100. -/
def Obligations.CmovCopiesOnNonzeroCondition : Prop :=
  ∀ (a b c : Reg) (s : State), ∃ t, exec (.cmov a b c) s = .next t ∧
    WritesReg s t a (if s.reg c = 0#32 then s.reg a else s.reg b)

/-- 40_register_ops.md R101. -/
def Obligations.AddIsModulo : Prop :=
  ∀ (a b c : Reg) (s : State), ∃ (t : State) (v : Word), exec (.add a b c) s = .next t ∧
    WritesReg s t a v ∧ v.toNat = ((s.reg b).toNat + (s.reg c).toNat) % 2 ^ 32

/-- 40_register_ops.md R102. -/
def Obligations.MulIsModulo : Prop :=
  ∀ (a b c : Reg) (s : State), ∃ (t : State) (v : Word), exec (.mul a b c) s = .next t ∧
    WritesReg s t a v ∧ v.toNat = ((s.reg b).toNat * (s.reg c).toNat) % 2 ^ 32

/-- 40_register_ops.md R103. That no register and not pc change on the fault is the spec's decision D4
(log 5). -/
def Obligations.DivIsTruncatingAndFaultsOnZero : Prop :=
  ∀ (a b c : Reg) (s : State),
    (s.reg c ≠ 0#32 → ∃ (t : State) (v : Word), exec (.div a b c) s = .next t ∧
      WritesReg s t a v ∧ v.toNat = (s.reg b).toNat / (s.reg c).toNat) ∧
    (s.reg c = 0#32 → ∃ (t : State) (f : FaultRecord), exec (.div a b c) s = .next t ∧
      t.status = .faulted f ∧ f.kind = .arithmeticError ∧ OnlyStatusChanged s t)

/-- 40_register_ops.md R104: every one of the 32 bits of the result. -/
def Obligations.NandIsBitwise : Prop :=
  ∀ (a b c : Reg) (s : State), ∃ (t : State) (v : Word), exec (.nand a b c) s = .next t ∧
    WritesReg s t a v ∧ ∀ k : Nat, k < 32 → v.getLsbD k = !((s.reg b).getLsbD k && (s.reg c).getLsbD k)

/-- 40_register_ops.md R105. -/
def Obligations.LiZeroExtends : Prop :=
  ∀ (a : Reg) (imm : Imm) (s : State), ∃ (t : State) (v : Word), exec (.li a imm) s = .next t ∧
    WritesReg s t a v ∧ v.toNat = imm.toNat

/-- 40_register_ops.md R106: subtraction built from NAND, LI and ADD, b - c = b + (~c) + 1 mod 2^32 (an
inference the spec marks as derived). -/
def Obligations.SubtractionFromNandAndAdd : Prop :=
  ∀ (a b c d e : Reg) (s : State), d ≠ b → e ≠ b → e ≠ d →
    ∃ (t : State), execAll [.nand d c c, .li e 1, .add d d e, .add a b d] s = .next t ∧
      (t.reg a).toNat = ((s.reg b).toNat + 2 ^ 32 - (s.reg c).toNat) % 2 ^ 32 ∧
      SameRegsBut [a, d, e] s t ∧ t.pc = s.pc + 4#32 ∧ SameManager s t ∧ SamePorts s t

/-! ### Memory operations -/

/-- 41_segment_ops.md R120. -/
def Obligations.SloadReadsTheCell : Prop :=
  ∀ (a b c : Reg) (s : State),
    (∀ v : Word, s.mem.wordAt (s.reg b) (s.reg c) = some v →
      ∃ t, exec (.sload a b c) s = .next t ∧ WritesReg s t a v) ∧
    (s.mem.mapped (s.reg b) = false ∨ s.mem.len (s.reg b) ≤ (s.reg c).toNat →
      Faults (.sload a b c) s .boundsError)

/-- What 20_memory.md R50 makes readable: a cell is there exactly when its identifier is mapped and
its offset below the length. So SLOAD and SSTORE complete exactly where they do not fault. -/
def Obligations.CellsAreTheMappedInRangeAddresses : Prop :=
  ∀ (m : Memory) (id off : Word),
    ((∃ v, m.wordAt id off = some v) ↔ (m.mapped id = true ∧ off.toNat < m.len id)) ∧
    (m.mapped id = false → m.translate id off = .error .unmappedId) ∧
    (m.mapped id = true → m.len id ≤ off.toNat → m.translate id off = .error .offsetOutOfRange)

/-- 41_segment_ops.md R121 with 20_memory.md R52: the one word at (x[A], x[B]) becomes x[C]; no other
cell, no length, no other segment, no register changes. -/
def Obligations.SstoreWritesOneCell : Prop :=
  ∀ (a b c : Reg) (s : State),
    (s.mem.mapped (s.reg a) = true → (s.reg b).toNat < s.mem.len (s.reg a) →
      ∃ t, exec (.sstore a b c) s = .next t ∧
        t.mem.wordAt (s.reg a) (s.reg b) = some (s.reg c) ∧
        (∀ id off : Word, ¬(id = s.reg a ∧ off = s.reg b) → t.mem.wordAt id off = s.mem.wordAt id off) ∧
        (∀ id : Word, t.mem.mapped id = s.mem.mapped id ∧ t.mem.len id = s.mem.len id) ∧
        SameRegsBut [] s t ∧ t.pc = s.pc + 1#32 ∧ t.free = s.free ∧ t.nextId = s.nextId ∧ SamePorts s t) ∧
    (s.mem.mapped (s.reg a) = false ∨ s.mem.len (s.reg a) ≤ (s.reg b).toNat →
      Faults (.sstore a b c) s .boundsError)

/-- 41_segment_ops.md R122 with 20_memory.md R55: the identifier is the head of the free list, or the
counter's value when the list is empty; the segment is new and zero-filled; nothing else changes. The
hypothesis that the storage suffices is of the spec's decision D9 (log 8), that an identifier is left
of its decision D8 (log 15). -/
def Obligations.MapAllocatesZeroFilled : Prop :=
  ∀ (b c : Reg) (s : State), s.overCap (s.mem.totalWords + (s.reg c).toNat) = false →
    (s.free ≠ [] ∨ s.nextId ≤ 2 ^ 32 - 1) →
    ∃ (t : State) (id : Word), exec (.map b c) s = .next t ∧
      (∀ x rest, s.free = x :: rest → id = x ∧ t.free = rest ∧ t.nextId = s.nextId) ∧
      (s.free = [] → id.toNat = s.nextId ∧ t.free = [] ∧ t.nextId = s.nextId + 1) ∧
      t.reg b = id ∧ SameRegsBut [b] s t ∧
      t.mem.mapped id = true ∧ t.mem.len id = (s.reg c).toNat ∧
      (∀ off : Word, off.toNat < (s.reg c).toNat → t.mem.wordAt id off = some 0#32) ∧
      (∀ j : Word, j ≠ id → t.mem.mapped j = s.mem.mapped j ∧ t.mem.len j = s.mem.len j ∧
        ∀ off : Word, t.mem.wordAt j off = s.mem.wordAt j off) ∧
      t.pc = s.pc + 1#32 ∧ SamePorts s t

/-- 20_memory.md R56 (the spec's decisions D8 and D9; log 8, 15): MAP's two exhaustions. -/
def Obligations.MapExhaustionFaults : Prop :=
  ∀ (b c : Reg) (s : State),
    (∀ cap : Nat, s.params.capWords = some cap → cap < s.mem.totalWords + (s.reg c).toNat →
      Faults (.map b c) s .resourceExhausted) ∧
    (s.free = [] → 2 ^ 32 - 1 < s.nextId → Faults (.map b c) s .resourceExhausted)

/-- 20_memory.md R55: "with CAP_WORDS unbounded and fewer than 2^32-1 live segments they never fire".
The table counts segment 0 too, so the live segments MAP issued are one fewer than its entries. Needs
the manager's invariant: an identifier is always left. -/
def Obligations.MapNeverExhaustsWithFewSegments : Prop :=
  ∀ (b c : Reg) (s : State), Inv s → s.params.capWords = none → s.mem.length - 1 < 2 ^ 32 - 1 →
    ∃ t, exec (.map b c) s = .next t ∧ t.status = s.status ∧ t.pc = s.pc + 1#32 ∧
      t.mem.mapped (t.reg b) = true ∧ t.reg b ≠ 0#32

/-- 41_segment_ops.md R123 with 20_memory.md R57. -/
def Obligations.UnmapReleases : Prop :=
  ∀ (c : Reg) (s : State),
    (s.reg c ≠ 0#32 → s.mem.mapped (s.reg c) = true →
      ∃ t, exec (.unmap c) s = .next t ∧ t.mem.mapped (s.reg c) = false ∧
        (∀ off : Word, t.mem.wordAt (s.reg c) off = none) ∧ t.free = s.reg c :: s.free ∧
        (∀ j : Word, j ≠ s.reg c → t.mem.mapped j = s.mem.mapped j ∧ t.mem.len j = s.mem.len j ∧
          ∀ off : Word, t.mem.wordAt j off = s.mem.wordAt j off) ∧
        SameRegsBut [] s t ∧ t.pc = s.pc + 1#32 ∧ t.nextId = s.nextId ∧ SamePorts s t) ∧
    (s.reg c = 0#32 ∨ s.mem.mapped (s.reg c) = false → Faults (.unmap c) s .boundsError)

/-- 20_memory.md R59: after UNMAP of an identifier, every SLOAD, SSTORE, UNMAP or LOADP naming it
faults with BoundsError until a MAP returns it. In four parts: UNMAP leaves the identifier unmapped and
on the free list; on the free list it is unmapped (by the manager's invariant); it stays on the free
list through every step, whatever else is stored, mapped or released, but one that runs a MAP which
takes it from the head and returns it; and in every state in which a non-zero identifier is unmapped
the four instructions naming it fault. -/
def Obligations.UseAfterUnmapFaults : Prop :=
  (∀ (c : Reg) (s t : State), s.reg c ≠ 0#32 → s.mem.mapped (s.reg c) = true →
    exec (.unmap c) s = .next t → s.reg c ∈ t.free ∧ t.mem.mapped (s.reg c) = false) ∧
  (∀ (id : Word) (s : State), Inv s → id ∈ s.free → id ≠ 0#32 ∧ s.mem.mapped id = false) ∧
  (∀ (id : Word) (s t : State), Inv s → id ∈ s.free → step s = .next t →
    id ∈ t.free ∨ ∃ (w : Word) (b c : Reg), s.fetch = some w ∧ decode w = .instr (.map b c) ∧
      s.free = id :: t.free ∧ t.reg b = id ∧ t.mem.mapped id = true) ∧
  (∀ (a b d : Reg) (u : State), u.reg a ≠ 0#32 → u.mem.mapped (u.reg a) = false →
    Faults (.sload d a b) u .boundsError ∧ Faults (.sstore a b d) u .boundsError ∧
      Faults (.unmap a) u .boundsError ∧ Faults (.loadp a b) u .boundsError)

/-- 20_memory.md R59 and 41_segment_ops.md R122: the identifier released last is the next one MAP
returns, with none of the old contents, and the free list and the counter are as before the pair. The
storage hypothesis is the spec's decision D9 (log 8). -/
def Obligations.MapReissuesTheLastReleased : Prop :=
  ∀ (c b d : Reg) (s : State), s.reg c ≠ 0#32 → s.mem.mapped (s.reg c) = true →
    s.params.capWords = none →
    ∃ t, execAll [.unmap c, .map b d] s = .next t ∧ t.reg b = s.reg c ∧
      t.free = s.free ∧ t.nextId = s.nextId ∧ t.mem.len (s.reg c) = (s.reg d).toNat ∧
      ∀ off : Word, off.toNat < (s.reg d).toNat → t.mem.wordAt (s.reg c) off = some 0#32

/-- 20_memory.md R59: "A sequence of N maps with no intervening unmaps yields identifiers 1..N in order"
from a state with an empty free list and next = 1. The unbounded storage is the spec's reference value
(decision D9, log 8). -/
def Obligations.FreshIdentifiersCountFromOne : Prop :=
  ∀ (b c : Reg) (s : State) (n : Nat), s.free = [] → s.nextId = 1 → s.params.capWords = none →
    n < 2 ^ 32 →
    ∃ t, execAll (List.replicate n (.map b c)) s = .next t ∧ t.nextId = n + 1 ∧ t.free = [] ∧
      (1 ≤ n → (t.reg b).toNat = n) ∧
      ∀ id : Word, 1 ≤ id.toNat → id.toNat ≤ n → t.mem.mapped id = true

/-- 20_memory.md R49, over all instructions, in states that meet the manager's invariant: a word keeps
its value until an SSTORE writes it, its segment is unmapped, or (for segment 0) a LOADP with a
non-zero identifier replaces segment 0; a length never changes, but segment 0's by LOADP; and every
word of a newly mapped segment is 0. -/
def Obligations.WordsAndLengthsPersist : Prop :=
  ∀ (i : Instr) (s t : State), Inv s → exec i s = .next t →
    (∀ id off v : Word, s.mem.wordAt id off = some v →
      t.mem.wordAt id off = some v ∨
      (∃ a b c, i = .sstore a b c ∧ s.reg a = id ∧ s.reg b = off) ∨
      (∃ c, i = .unmap c ∧ s.reg c = id) ∨
      (∃ b c, i = .loadp b c ∧ s.reg b ≠ 0#32 ∧ id = 0#32)) ∧
    (∀ id : Word, s.mem.mapped id = true → t.mem.mapped id = true →
      t.mem.len id = s.mem.len id ∨ (∃ b c, i = .loadp b c ∧ s.reg b ≠ 0#32 ∧ id = 0#32)) ∧
    (∀ id : Word, s.mem.mapped id = false → t.mem.mapped id = true →
      ∀ off : Word, off.toNat < t.mem.len id → t.mem.wordAt id off = some 0#32)

/-- 20_memory.md R64 at two instructions: an SSTORE and then an SLOAD from the same cell, whatever the
destination, reads the value stored. -/
def Obligations.LoadAfterStoreReadsTheStored : Prop :=
  ∀ (a b c d : Reg) (s : State), s.mem.mapped (s.reg a) = true →
    (s.reg b).toNat < s.mem.len (s.reg a) →
    ∃ t, execAll [.sstore a b c, .sload d a b] s = .next t ∧ t.reg d = s.reg c ∧
      SameRegsBut [d] s t ∧ t.pc = s.pc + 2#32

/-- 20_memory.md R67 and 70_reset_and_hazards.md R186 (the spec's decision D20, log 21): a store into
segment 0 at pc + 1 is what the very next fetch reads. -/
def Obligations.StoreToNextWordIsFetched : Prop :=
  ∀ (a b c : Reg) (s : State), s.reg a = 0#32 → s.reg b = s.pc + 1#32 → s.mem.mapped 0#32 = true →
    (s.pc + 1#32).toNat < s.mem.len 0#32 →
    ∃ t, exec (.sstore a b c) s = .next t ∧ t.pc = s.pc + 1#32 ∧ t.fetch = some (s.reg c)

/-! ### Program control -/

/-- 42_program_control.md R135, the jump: identifier 0 sets pc and nothing else, and never faults. -/
def Obligations.LoadpWithZeroIsAJump : Prop :=
  ∀ (b c : Reg) (s : State), s.reg b = 0#32 →
    ∃ t, exec (.loadp b c) s = .next t ∧ t.pc = s.reg c ∧ SameRegsBut [] s t ∧ SameManager s t ∧
      SamePorts s t

/-- 42_program_control.md R135 with 20_memory.md R58, the replacement: segment 0 reads as the segment
did, with its length; every other segment, the named one among them, is unchanged; the next fetch is
from the new segment 0 at the target. Unmapped: BoundsError, whatever the storage (the order of the
checks is the spec's decision D24, log 24; the recorded cause its decision D5, log 7). Over a bounded
CAP_WORDS: ResourceExhausted (the spec's decision D9, log 8). -/
def Obligations.LoadpReplacesSegmentZero : Prop :=
  ∀ (b c : Reg) (s : State), s.reg b ≠ 0#32 →
    (s.mem.mapped (s.reg b) = true →
      s.overCap (s.mem.totalWords - s.mem.len 0#32 + s.mem.len (s.reg b)) = false →
      ∃ t, exec (.loadp b c) s = .next t ∧ t.pc = s.reg c ∧
        t.mem.mapped 0#32 = true ∧ t.mem.len 0#32 = s.mem.len (s.reg b) ∧
        (∀ off : Word, t.mem.wordAt 0#32 off = s.mem.wordAt (s.reg b) off) ∧
        (∀ j : Word, j ≠ 0#32 → t.mem.mapped j = s.mem.mapped j ∧ t.mem.len j = s.mem.len j ∧
          ∀ off : Word, t.mem.wordAt j off = s.mem.wordAt j off) ∧
        t.fetch = s.mem.wordAt (s.reg b) (s.reg c) ∧
        SameRegsBut [] s t ∧ t.free = s.free ∧ t.nextId = s.nextId ∧ SamePorts s t) ∧
    (s.mem.mapped (s.reg b) = false →
      Faults (.loadp b c) s .boundsError ∧ FaultsFor (.loadp b c) s .unmappedId) ∧
    (s.mem.mapped (s.reg b) = true →
      s.overCap (s.mem.totalWords - s.mem.len 0#32 + s.mem.len (s.reg b)) = true →
      Faults (.loadp b c) s .resourceExhausted)

/-- 42_program_control.md R136: a conditional jump is a CMOV choosing the target register and a LOADP
with a zero identifier (an inference the spec marks as derived). -/
def Obligations.ConditionalJumpFromCmovAndLoadp : Prop :=
  ∀ (z r e c : Reg) (s : State), r ≠ z → s.reg z = 0#32 →
    ∃ t, execAll [.cmov r e c, .loadp z r] s = .next t ∧
      t.pc = (if s.reg c = 0#32 then s.reg r else s.reg e) ∧ SameRegsBut [r] s t ∧ SameManager s t ∧
      SamePorts s t

/-- 60_exceptions.md R170: HALT makes the status Halted and the step ends; "no further instructions
execute". Registers, segments, the free list, next and the ports are unchanged (44_halt_invalid.md R150,
30_encoding.md R81; of a final state, so of the model alone: log 14). That `step` says "no step" with the
host interface's fault outcome is the model's choice (DEDUCED, log 6). -/
def Obligations.HaltEndsTheRun : Prop :=
  ∀ s : State, ∃ t, exec .halt s = .next t ∧ t.status = .halted ∧ step t = .fault .halted ∧
    SameRegsBut [] s t ∧ SameManager s t ∧ t.waitingInput = s.waitingInput ∧ t.out = s.out ∧
    t.input = s.input ∧ t.params = s.params

/-! ### Input and output -/

/-- 43_io.md R140: a value that fits a byte is emitted as that byte; a larger one faults IOError. That
nothing is emitted on the fault is the spec's decision D4 (log 5). -/
def Obligations.OutEmitsOneByteOrFaults : Prop :=
  ∀ (c : Reg) (s : State),
    ((s.reg c).toNat ≤ 255 → ∃ (t : State) (v : Byte), exec (.out c) s = .next t ∧
      v.toNat = (s.reg c).toNat ∧ t.out = s.out ++ [v] ∧ SameRegsBut [] s t ∧ t.pc = s.pc + 1#32 ∧
      SameManager s t ∧ t.status = s.status ∧ t.waitingInput = s.waitingInput ∧ t.input = s.input ∧
      t.params = s.params) ∧
    (255 < (s.reg c).toNat → ∃ (t : State) (f : FaultRecord), exec (.out c) s = .next t ∧
      t.status = .faulted f ∧ f.kind = .ioError ∧ OnlyStatusChanged s t)

/-- 43_io.md R141, for whatever answer the host gives: a byte is zero-extended, an end of stream is
0xFFFFFFFF and no fault; exactly that answer is consumed, and the wait, if there was one, is over. How
the host's answers are held is log 10. -/
def Obligations.InWritesTheAnswer : Prop :=
  ∀ (c : Reg) (s : State) (e : InputAnswer) (rest : List InputAnswer), s.input.answers = e :: rest →
    ∃ t, exec (.inp c) s = .next t ∧
      (∀ v : Byte, e = .byte v → (t.reg c).toNat = v.toNat) ∧
      (e = .eos → (t.reg c).toNat = 0xFFFFFFFF) ∧
      t.input.consumed = s.input.consumed ++ [e] ∧ t.input.answers = rest ∧
      t.input.after = s.input.after ∧ t.waitingInput = false ∧ SameRegsBut [c] s t ∧
      t.pc = s.pc + 1#32 ∧ SameManager s t ∧ t.status = s.status ∧ t.out = s.out ∧ t.params = s.params

/-- 92_eei_decisions.md D10 (INPUT_MODEL is OPEN; log 10): after the listed answers the reference model
answers EOS to every request (sticky): any number of INs, into any registers, each complete with
0xFFFFFFFF and leave the port as it was but for the answers consumed. -/
def Obligations.EndOfStreamIsSticky : Prop :=
  ∀ (cs : List Reg) (s : State), s.input.answers = [] → s.input.after = .eosForever →
    ∃ t, execAll (cs.map Instr.inp) s = .next t ∧ (∀ c ∈ cs, t.reg c = 0xFFFFFFFF#32) ∧
      SameRegsBut cs s t ∧ t.pc = s.pc + BitVec.ofNat 32 cs.length ∧ t.status = s.status ∧
      SameManager s t ∧ t.out = s.out ∧ t.params = s.params ∧
      t.waitingInput = (s.waitingInput && cs.isEmpty) ∧
      t.input.answers = [] ∧ t.input.after = .eosForever ∧
      t.input.consumed = s.input.consumed ++ List.replicate cs.length .eos

/-- 10_state.md R33 and 60_exceptions.md R178: with no answer there the core begins to wait with every
other piece of state unchanged, and the host's answer ends the wait: the step after it is the IN
completed with that answer. How a wait is held is log 11. -/
def Obligations.WaitSurvivesAndAnswerEndsIt : Prop :=
  ∀ (c : Reg) (s : State) (w : Word) (e : InputAnswer), s.status = .running →
    s.waitingInput = false → s.fetch = some w →
    decode w = .instr (.inp c) → s.input.answers = [] → s.input.after = .never →
    step s = .next { s with waitingInput := true } ∧
    step { s with waitingInput := true } = .fault .waitingForInput ∧
    ∃ t, step (State.hostAnswer { s with waitingInput := true } e) = .next t ∧
      t.waitingInput = false ∧ t.pc = s.pc + 1#32 ∧ t.reg c = answerValue e ∧ SameRegsBut [c] s t ∧
      SameManager s t ∧ t.status = s.status ∧ t.out = s.out ∧ t.params = s.params ∧
      t.input.answers = [] ∧ t.input.after = .never ∧ t.input.consumed = s.input.consumed ++ [e]

/-- 10_state.md R42 along a run (the spec's decision D11): bytes leave in program order and none is
lost: what has been emitted stays the beginning of what is emitted; the same for the answers consumed
(R41, R44; log 10), whatever the host answers on the way. -/
def Obligations.ObservationsOnlyGrow : Prop :=
  ∀ s t : State, Runs s t → s.out <+: t.out ∧ s.input.consumed <+: t.input.consumed

/-- 10_state.md R41, R42 at one step: a byte is emitted by an OUT alone and one answer is consumed by an
IN alone. -/
def Obligations.OneByteOrOneAnswerAStep : Prop :=
  ∀ s t : State, step s = .next t →
    (t.out = s.out ∨ ∃ (w : Word) (c : Reg) (v : Byte), s.fetch = some w ∧ decode w = .instr (.out c) ∧
      t.out = s.out ++ [v]) ∧
    (t.input = s.input ∨ ∃ (w : Word) (c : Reg) (e : InputAnswer), s.fetch = some w ∧
      decode w = .instr (.inp c) ∧ t.input.consumed = s.input.consumed ++ [e])

/-! ### Pseudo-instructions -/

/-- 30_encoding.md R85: each pseudo-instruction's expansion does exactly what it is for. (The
pseudo-instructions are the spec's own, decision D14.) -/
def Obligations.PseudoInstructionsAreExact : Prop :=
  ∀ s : State,
    (∃ t, execAll Pseudo.nop.expand s = .next t ∧ SameRegsBut [] s t ∧ t.pc = s.pc + 1#32 ∧
      SameManager s t ∧ SamePorts s t) ∧
    (∀ a b : Reg, ∃ t, execAll (Pseudo.not a b).expand s = .next t ∧ WritesReg s t a (~~~(s.reg b))) ∧
    (∀ a b c : Reg, ∃ t, execAll (Pseudo.and a b c).expand s = .next t ∧
      t.reg a = s.reg b &&& s.reg c ∧ SameRegsBut [a] s t ∧ t.pc = s.pc + 2#32 ∧ SameManager s t ∧
      SamePorts s t) ∧
    (∀ z c : Reg, s.reg z = 0#32 → ∃ t, execAll (Pseudo.jmp z c).expand s = .next t ∧ t.pc = s.reg c ∧
      SameRegsBut [] s t ∧ SameManager s t ∧ SamePorts s t)

/-! ### The whole machine -/

/-- 30_encoding.md R81: "Every instruction rule leaves the state unchanged except for what it says it
writes, the pc and, for OUT, the output port", over all instructions: registers (10_state.md R21),
every word, length and mapping of the segment table but those the instruction names (SSTORE's address
(x[A], x[B]); the identifier MAP issues; x[C] for UNMAP; segment 0 for a LOADP with a non-zero
identifier), free list, counter, output, input port, waiting bit, parameters, status. The input port and
the waiting bit are held in the model's way (log 10, 11); taking a fault leaves all but the status (the
spec's decision D4, log 5). -/
def Obligations.EveryInstructionKeepsItsFrame : Prop :=
  ∀ (i : Instr) (s t : State), exec i s = .next t →
    SameRegsBut (writtenRegs i) s t ∧
    (i.op ∉ [.sstore, .map, .unmap, .loadp] → t.mem = s.mem) ∧
    (∀ a b c, i = .sstore a b c →
      (∀ id off : Word, ¬(id = s.reg a ∧ off = s.reg b) → t.mem.wordAt id off = s.mem.wordAt id off) ∧
      ∀ id : Word, t.mem.mapped id = s.mem.mapped id ∧ t.mem.len id = s.mem.len id) ∧
    (∀ b c, i = .map b c → SameSegmentsBut s.issuedId s t) ∧
    (∀ c, i = .unmap c → SameSegmentsBut (s.reg c) s t) ∧
    (∀ b c, i = .loadp b c → SameSegmentsBut 0#32 s t ∧ (s.reg b = 0#32 → t.mem = s.mem)) ∧
    (i.op ∉ [.map, .unmap] → t.free = s.free) ∧
    (∀ b c, i = .map b c → t.free = s.free ∨ t.free = s.free.tail) ∧
    (∀ c, i = .unmap c → t.free = s.free ∨ t.free = s.reg c :: s.free) ∧
    (i.op ≠ .map → t.nextId = s.nextId) ∧
    (i.op = .map → t.nextId = s.nextId ∨ (s.free = [] ∧ t.nextId = s.nextId + 1)) ∧
    (i.op ≠ .out → t.out = s.out) ∧
    (∀ c, i = .out c → t.out = s.out ∨ t.out = s.out ++ [lowByte (s.reg c)]) ∧
    (i.op ≠ .inp → t.input = s.input ∧ t.waitingInput = s.waitingInput) ∧
    t.params = s.params ∧
    (t.status = s.status ∨ (i = .halt ∧ t.status = .halted) ∨ ∃ f, t.status = .faulted f)

/-- 10_state.md R21, 30_encoding.md R82: an instruction reads no register but those of R21's table. Two
states that differ in other registers alone end in states that differ in registers alone, and each
register is either the same in both or untouched in both. -/
def Obligations.OnlyReadRegistersMatter : Prop :=
  ∀ (i : Instr) (s s' t : State), SameButRegs s s' → (∀ r ∈ readRegs i, s'.reg r = s.reg r) →
    exec i s = .next t →
    ∃ t', exec i s' = .next t' ∧ SameButRegs t t' ∧
      ∀ r : Reg, t'.reg r = t.reg r ∨ (t.reg r = s.reg r ∧ t'.reg r = s'.reg r)

/-- 10_state.md R25 over all instructions (pc after HALT is the spec's decision D6, after a fault its
decision D4; log 14, 5): pc after an instruction that completes. That an IN which begins to wait leaves
pc follows from 10_state.md R33 and 60_exceptions.md R178, in the model's reading of the wait (DEDUCED,
log 11). -/
def Obligations.PcAfterEachInstruction : Prop :=
  ∀ (i : Instr) (s t : State), s.status = .running → exec i s = .next t →
    (∀ f, t.status = .faulted f → t.pc = s.pc) ∧
    (t.status = .halted → t.pc = s.pc) ∧
    (t.status = .running → t.waitingInput = true → i.op = .inp → t.pc = s.pc) ∧
    (t.status = .running → (i.op = .inp → t.waitingInput = false) → i.op ≠ .loadp → t.pc = s.pc + 1#32) ∧
    (∀ b c, i = .loadp b c → t.status = .running → t.pc = s.reg c)

/-- 10_state.md R26 (an inference the spec marks as derived): pc never wraps: from a state that meets
the invariant, a step that fetched an instruction other than LOADP and completed it leaves pc exactly
one higher, and at most 2^32-1. -/
def Obligations.PcNeverWraps : Prop :=
  ∀ (s t : State) (w : Word) (i : Instr), Inv s → step s = .next t → s.fetch = some w →
    decode w = .instr i → i.op ≠ .loadp → t.status = .running → t.waitingInput = false →
    t.pc.toNat = s.pc.toNat + 1 ∧ s.pc.toNat + 1 ≤ 2 ^ 32 - 1

/-- 60_exceptions.md R162 (the record and the absence of partial effects are the spec's decisions D4 and
D5; log 5, 7), over every step: a step that ends Faulted changes nothing but the status, and its record
holds a kind with its code of R161, the pc, and the word at pc or none. -/
def Obligations.FaultsArePreciseAndChangeNothing : Prop :=
  ∀ (s t : State) (f : FaultRecord), step s = .next t → t.status = .faulted f →
    OnlyStatusChanged s t ∧ f.pc = s.pc ∧ f.word = s.mem.wordAt 0#32 s.pc ∧
    (f.kind, f.code) ∈ [(FaultKind.decodeError, 1), (.boundsError, 2), (.arithmeticError, 3),
      (.ioError, 4), (.resourceExhausted, 5)]

/-- 60_exceptions.md R161 over every step (ResourceExhausted and the fetch fault are the spec's
decisions D3, D8, D9; where LOADP could fail in two ways the kind is that of its decision D24): each
fault kind comes exactly from what the table names as its trigger. -/
def Obligations.FaultKindsHaveTheirTriggers : Prop :=
  ∀ (s t : State) (f : FaultRecord), step s = .next t → t.status = .faulted f →
    (f.kind = .decodeError ↔ ∃ w op, s.fetch = some w ∧ decode w = .invalid op) ∧
    (f.kind = .arithmeticError ↔ ∃ w a b c, s.fetch = some w ∧ decode w = .instr (.div a b c) ∧
      s.reg c = 0#32) ∧
    (f.kind = .ioError ↔ ∃ w c, s.fetch = some w ∧ decode w = .instr (.out c) ∧
      255 < (s.reg c).toNat) ∧
    (f.kind = .boundsError ↔ s.mem.len 0#32 ≤ s.pc.toNat ∨ ∃ w, s.fetch = some w ∧
      ((∃ a b c, decode w = .instr (.sload a b c) ∧
          (s.mem.mapped (s.reg b) = false ∨ s.mem.len (s.reg b) ≤ (s.reg c).toNat)) ∨
        (∃ a b c, decode w = .instr (.sstore a b c) ∧
          (s.mem.mapped (s.reg a) = false ∨ s.mem.len (s.reg a) ≤ (s.reg b).toNat)) ∨
        (∃ c, decode w = .instr (.unmap c) ∧ (s.reg c = 0#32 ∨ s.mem.mapped (s.reg c) = false)) ∨
        (∃ b c, decode w = .instr (.loadp b c) ∧ s.reg b ≠ 0#32 ∧ s.mem.mapped (s.reg b) = false))) ∧
    (f.kind = .resourceExhausted ↔ ∃ w, s.fetch = some w ∧
      ((∃ b c, decode w = .instr (.map b c) ∧
          ((∃ cap, s.params.capWords = some cap ∧ cap < s.mem.totalWords + (s.reg c).toNat) ∨
            (s.free = [] ∧ 2 ^ 32 - 1 < s.nextId))) ∨
        (∃ b c cap, decode w = .instr (.loadp b c) ∧ s.reg b ≠ 0#32 ∧ s.mem.mapped (s.reg b) = true ∧
          s.params.capWords = some cap ∧
          cap < s.mem.totalWords - s.mem.len 0#32 + s.mem.len (s.reg b))))

/-- 60_exceptions.md R164 (the spec's decisions D3, D5, D24; log 7, 24): which check answers when
several would. -/
def Obligations.FaultChecksInOrder : Prop :=
  (∀ (c : Reg) (s : State), s.reg c = 0#32 → FaultsFor (.unmap c) s .unmapSegment0) ∧
  (∀ (b c : Reg) (s : State), s.reg b ≠ 0#32 → s.mem.mapped (s.reg b) = false →
    FaultsFor (.loadp b c) s .unmappedId) ∧
  (∀ (b c : Reg) (s : State) (cap : Nat), s.params.capWords = some cap →
    cap < s.mem.totalWords + (s.reg c).toNat → FaultsFor (.map b c) s .storage) ∧
  (∀ (b c : Reg) (s : State), s.params.capWords = none → s.free = [] → 2 ^ 32 - 1 < s.nextId →
    FaultsFor (.map b c) s .ids)

/-- 10_state.md R32: "Running → Halted on the halt instruction", and on nothing else. -/
def Obligations.OnlyHaltHalts : Prop :=
  ∀ s t : State, step s = .next t →
    (t.status = .halted ↔ ∃ w, s.fetch = some w ∧ decode w = .instr .halt)

/-- 10_state.md R31 with R28, R29, R30, 20_memory.md R48, R69 and 10_state.md R33 (R31 and R48 are
inferences the spec marks as derived): every step keeps the invariant, from EVERY state that meets it. -/
def Obligations.EveryStepKeepsTheInvariant : Prop :=
  ∀ s t : State, Inv s → step s = .next t → Inv t

/-- The host's answer to an input request keeps the invariant too (10_state.md R41, R44; log 11). -/
def Obligations.HostAnswerKeepsTheInvariant : Prop :=
  ∀ (s : State) (e : InputAnswer), Inv s → Inv (s.hostAnswer e)

/-- The invariant holds at State.reset (10_state.md R31: "holding at reset"). -/
def Obligations.ResetMeetsTheInvariant : Prop := Inv State.reset

/-! ### Reset -/

/-- 70_reset_and_hazards.md R180: the reset value of every element, for every program P the port
accepts, whatever the parameters and the host's answers. -/
def Obligations.ResetSetsEveryElement : Prop :=
  ∀ (p : Params) (answers : List InputAnswer) (tail : InputTail) (prog : List Word) (s : State),
    resetWith p answers tail prog = .ok s →
    (∀ r : Reg, s.reg r = 0#32) ∧ s.pc = 0#32 ∧
    (∀ id : Word, s.mem.mapped id = true ↔ id = 0#32) ∧ s.mem.len 0#32 = prog.length ∧
    (∀ off : Word, s.mem.wordAt 0#32 off = prog[off.toNat]?) ∧
    s.free = [] ∧ s.nextId = 1 ∧ s.out = [] ∧ s.waitingInput = false ∧ s.status = .running

/-- A started core meets the invariant, whatever the program, the parameters and the host's answers
(10_state.md R31: "holding at reset"; an inference the spec marks as derived). -/
def Obligations.EveryAcceptedResetMeetsTheInvariant : Prop :=
  ∀ (p : Params) (answers : List InputAnswer) (tail : InputTail) (prog : List Word) (s : State),
    resetWith p answers tail prog = .ok s → Inv s

/-- 70_reset_and_hazards.md R181 (the spec's decisions D7, D9, D22): the core starts exactly when the
byte length is a multiple of 4 and the words fit PROGRAM_MAX_WORDS and a bounded CAP_WORDS. -/
def Obligations.RefusedResets : Prop :=
  ∀ (p : Params) (answers : List InputAnswer) (tail : InputTail) (bytes : List Byte),
    (∃ s, resetWithBytes p answers tail bytes = .ok s) ↔
      (bytes.length % 4 = 0 ∧ bytes.length / 4 ≤ 2 ^ 32 - 1 ∧
        ∀ cap : Nat, p.capWords = some cap → bytes.length / 4 ≤ cap)

/-- 10_state.md R40: each word is "reconstructed from 4 consecutive bytes in big-endian order". -/
def Obligations.ProgramBytesAreBigEndian : Prop :=
  ∀ (bytes : List Byte) (words : List Word), wordsOfBytes bytes = some words →
    bytes.length = 4 * words.length ∧
    ∀ i : Nat, i < words.length →
      (words.getD i 0).toNat = (bytes.getD (4 * i) 0).toNat * 2 ^ 24 +
        (bytes.getD (4 * i + 1) 0).toNat * 2 ^ 16 + (bytes.getD (4 * i + 2) 0).toNat * 2 ^ 8 +
        (bytes.getD (4 * i + 3) 0).toNat

/-- 70_reset_and_hazards.md R184 (an inference the spec marks as derived, over its decision D3): the
empty program is accepted at reset, whatever the parameters and the input, and faults at its first fetch
with BoundsError. -/
def Obligations.EmptyProgramFaultsAtOnce : Prop :=
  ∀ (p : Params) (answers : List InputAnswer) (tail : InputTail),
    ∃ s t f, resetWith p answers tail [] = .ok s ∧ step s = .next t ∧ t.status = .faulted f ∧ f.kind = .boundsError ∧ f.pc = 0#32 ∧ f.word = none

/-- 10_state.md R31 along every run of every accepted program, with the host answering between steps as
it will (R41): whatever is reached from a reset meets the invariant. -/
def Obligations.ReachableStatesMeetTheInvariant : Prop :=
  ∀ (p : Params) (answers : List InputAnswer) (tail : InputTail) (prog : List Word) (s t : State),
    resetWith p answers tail prog = .ok s → Runs s t → Inv t
end

