-- ==== Sys2Proof/Laws/Assoc.lean ====
section
/-! SUPPORT. The laws of the sorted lists under the memory: a find after an insert or an erase, and
that both keep the keys rising. -/

namespace Sys2Proof.Machine

variable {α : Type}

@[simp] theorem assocFind_nil (k : Nat) : assocFind ([] : List (Nat × α)) k = none := rfl

theorem assocFind_insert_same (l : List (Nat × α)) (k : Nat) (v : α) :
    assocFind (assocInsert l k v) k = some v := by
  induction l with
  | nil => simp [assocInsert, assocFind]
  | cons p rest ih =>
    obtain ⟨n, u⟩ := p
    by_cases h1 : k < n
    · simp [assocInsert, h1, assocFind]
    · by_cases h2 : n = k
      · simp [assocInsert, h2, assocFind]
      · simp [assocInsert, h1, h2, assocFind, ih]

theorem assocFind_insert_ne (l : List (Nat × α)) (k j : Nat) (v : α) (h : j ≠ k) :
    assocFind (assocInsert l k v) j = assocFind l j := by
  induction l with
  | nil => simp [assocInsert, assocFind, Ne.symm h]
  | cons p rest ih =>
    obtain ⟨n, u⟩ := p
    by_cases h1 : k < n
    · simp [assocInsert, h1, assocFind, Ne.symm h]
    · by_cases h2 : n = k
      · subst h2
        simp [assocInsert, assocFind, Ne.symm h]
      · simp [assocInsert, h1, h2, assocFind, ih]

theorem assocFind_insert (l : List (Nat × α)) (k j : Nat) (v : α) :
    assocFind (assocInsert l k v) j = if j = k then some v else assocFind l j := by
  split
  · next h => rw [h, assocFind_insert_same]
  · next h => exact assocFind_insert_ne l k j v h

theorem assocFind_erase (l : List (Nat × α)) (k j : Nat) :
    assocFind (assocErase l k) j = if j = k then none else assocFind l j := by
  induction l with
  | nil => simp [assocErase]
  | cons p rest ih =>
    obtain ⟨n, u⟩ := p
    by_cases h1 : n = k
    · subst h1
      by_cases h2 : j = n
      · subst h2
        simpa [assocErase] using ih
      · simp [assocErase, assocFind, ih, h2, Ne.symm h2]
    · by_cases h2 : j = k
      · subst h2
        simp [assocErase, assocFind, ih, h1]
      · simp [assocErase, assocFind, ih, h1, h2]

/-- The keys and entries of an insert: the new one, or an old one. -/
theorem mem_assocInsert {l : List (Nat × α)} {k : Nat} {v : α} {p : Nat × α}
    (h : p ∈ assocInsert l k v) : p = (k, v) ∨ p ∈ l := by
  induction l with
  | nil => exact .inl (by simpa [assocInsert] using h)
  | cons q rest ih =>
    obtain ⟨n, u⟩ := q
    simp only [assocInsert] at h
    split at h
    · simpa using h
    · split at h
      · rcases List.mem_cons.mp h with h | h
        · exact .inl h
        · exact .inr (List.mem_cons_of_mem _ h)
      · rcases List.mem_cons.mp h with h | h
        · exact .inr (by simp [h])
        · exact (ih h).imp id (List.mem_cons_of_mem _)

theorem mem_assocErase {l : List (Nat × α)} {k : Nat} {p : Nat × α} (h : p ∈ assocErase l k) :
    p ∈ l ∧ p.1 ≠ k := by
  induction l with
  | nil => simp [assocErase] at h
  | cons q rest ih =>
    obtain ⟨n, u⟩ := q
    simp only [assocErase] at h
    split at h
    · exact ⟨List.mem_cons_of_mem _ (ih h).1, (ih h).2⟩
    · next hne =>
      rcases List.mem_cons.mp h with h | h
      · subst h
        exact ⟨List.mem_cons_self, hne⟩
      · exact ⟨List.mem_cons_of_mem _ (ih h).1, (ih h).2⟩

theorem rising_cons {n : Nat} {u : α} {rest : List (Nat × α)} :
    Rising ((n, u) :: rest) ↔ (∀ p ∈ rest, n < p.1) ∧ Rising rest := by
  simp [Rising]

theorem rising_insert {l : List (Nat × α)} (k : Nat) (v : α) (h : Rising l) :
    Rising (assocInsert l k v) := by
  induction l with
  | nil => simp [assocInsert, Rising]
  | cons q rest ih =>
    obtain ⟨n, u⟩ := q
    obtain ⟨h1, h2⟩ := rising_cons.mp h
    simp only [assocInsert]
    split
    · next hk =>
      refine rising_cons.mpr ⟨fun p hp => ?_, h⟩
      rcases List.mem_cons.mp hp with hp | hp
      · simpa [hp] using hk
      · exact lt_trans hk (h1 p hp)
    · next hk =>
      split
      · next hn =>
        subst hn
        exact rising_cons.mpr ⟨h1, h2⟩
      · next hn =>
        refine rising_cons.mpr ⟨fun p hp => ?_, ih h2⟩
        rcases mem_assocInsert hp with hp | hp
        · subst hp
          simp only
          omega
        · exact h1 p hp

theorem rising_erase {l : List (Nat × α)} (k : Nat) (h : Rising l) : Rising (assocErase l k) := by
  induction l with
  | nil => simp [assocErase, Rising]
  | cons q rest ih =>
    obtain ⟨n, u⟩ := q
    obtain ⟨h1, h2⟩ := rising_cons.mp h
    simp only [assocErase]
    split
    · exact ih h2
    · exact rising_cons.mpr ⟨fun p hp => h1 p (mem_assocErase hp).1, ih h2⟩

/-- In a rising list, what is found is what is listed. -/
theorem assocFind_eq_some {l : List (Nat × α)} (h : Rising l) {k : Nat} {v : α} :
    assocFind l k = some v ↔ (k, v) ∈ l := by
  induction l with
  | nil => simp
  | cons q rest ih =>
    obtain ⟨n, u⟩ := q
    obtain ⟨h1, h2⟩ := rising_cons.mp h
    by_cases hn : n = k
    · subst hn
      constructor
      · intro hf
        simp [assocFind] at hf
        simp [hf]
      · intro hm
        rcases List.mem_cons.mp hm with hm | hm
        · simp_all [assocFind]
        · exact absurd (h1 _ hm) (lt_irrefl _)
    · simp [assocFind, hn, ih h2, Ne.symm hn]

/-- What is found is listed, in any list. -/
theorem mem_of_assocFind {l : List (Nat × α)} {k : Nat} {v : α} (h : assocFind l k = some v) :
    (k, v) ∈ l := by
  induction l with
  | nil => simp at h
  | cons q rest ih =>
    obtain ⟨n, u⟩ := q
    by_cases hn : n = k
    · subst hn
      simp [assocFind] at h
      simp [h]
    · exact List.mem_cons_of_mem _ (ih (by simpa [assocFind, hn] using h))

end Sys2Proof.Machine
end

