-- ==== Sys2Proof/Laws/Memory.lean ====
section
/-! SUPPORT. The laws of segments and of the segment table: a read after a write, the translation, the
total of the mapped words, and that every memory operation keeps the canonical form. -/

namespace Sys2Proof.Machine

/-! ### Segments -/

@[simp] theorem Segment.zeros_len (n : Nat) : (Segment.zeros n).len = n := rfl

/-- A new segment reads 0 everywhere (20_memory.md R49). -/
@[simp] theorem Segment.zeros_read (n off : Nat) : (Segment.zeros n).read off = 0#32 := rfl

@[simp] theorem Segment.write_len (g : Segment) (off : Nat) (v : Word) : (g.write off v).len = g.len := by
  unfold Segment.write
  split <;> rfl

@[simp] theorem Segment.write_read_same (g : Segment) (off : Nat) (v : Word) :
    (g.write off v).read off = v := by
  unfold Segment.write
  split
  · next h => simp [Segment.read, assocFind_erase, h]
  · simp [Segment.read, assocFind_insert_same]

theorem Segment.write_read_ne (g : Segment) (off j : Nat) (v : Word) (h : j ≠ off) :
    (g.write off v).read j = g.read j := by
  unfold Segment.write
  split
  · simp [Segment.read, assocFind_erase, h]
  · simp [Segment.read, assocFind_insert_ne _ _ _ _ h]

theorem Segment.zeros_wf {n : Nat} (h : n ≤ 2 ^ 32 - 1) : (Segment.zeros n).wf := by
  simp only [Segment.wf, Segment.zeros, Rising]
  exact ⟨by simp, by simp, h⟩

/-- A write below the length keeps the canonical form. -/
theorem Segment.write_wf {g : Segment} {off : Nat} {v : Word} (hg : g.wf) (ho : off < g.len) :
    (g.write off v).wf := by
  obtain ⟨h1, h2, h3⟩ := hg
  unfold Segment.write
  split
  · exact ⟨rising_erase off h1, fun p hp => h2 p (mem_assocErase hp).1, h3⟩
  · next hv =>
    refine ⟨rising_insert off v h1, fun p hp => ?_, h3⟩
    rcases mem_assocInsert hp with hp | hp
    · subst hp
      exact ⟨ho, hv⟩
    · exact h2 p hp

theorem mem_cellsFrom {k : Nat} {ws : List Word} {p : Nat × Word} (h : p ∈ cellsFrom k ws) :
    k ≤ p.1 ∧ p.1 < k + ws.length ∧ p.2 ≠ Segment.unlisted := by
  induction ws generalizing k with
  | nil => simp [cellsFrom] at h
  | cons w ws ih =>
    simp only [cellsFrom] at h
    split at h
    · obtain ⟨h1, h2, h3⟩ := ih h
      simp only [List.length_cons]
      exact ⟨by omega, by omega, h3⟩
    · next hw =>
      rcases List.mem_cons.mp h with h | h
      · subst h
        simp only [List.length_cons]
        exact ⟨le_refl _, by omega, hw⟩
      · obtain ⟨h1, h2, h3⟩ := ih h
        simp only [List.length_cons]
        exact ⟨by omega, by omega, h3⟩

theorem cellsFrom_rising (k : Nat) (ws : List Word) : Rising (cellsFrom k ws) := by
  induction ws generalizing k with
  | nil => simp [cellsFrom, Rising]
  | cons w ws ih =>
    simp only [cellsFrom]
    split
    · exact ih (k + 1)
    · exact rising_cons.mpr ⟨fun p hp => (mem_cellsFrom hp).1, ih (k + 1)⟩

/-- A loaded sequence of words is in canonical form (10_state.md R40). -/
theorem Segment.ofWords_wf {ws : List Word} (h : ws.length ≤ 2 ^ 32 - 1) : (Segment.ofWords ws).wf :=
  ⟨cellsFrom_rising 0 ws, fun p hp => by
    have := mem_cellsFrom hp
    exact ⟨by simpa [Segment.ofWords] using this.2.1, this.2.2⟩, h⟩

@[simp] theorem Segment.ofWords_len (ws : List Word) : (Segment.ofWords ws).len = ws.length := rfl

theorem cellsFrom_find (k : Nat) (ws : List Word) (i : Nat) :
    (assocFind (cellsFrom k ws) (k + i)).getD Segment.unlisted = ws.getD i Segment.unlisted := by
  induction ws generalizing k i with
  | nil => simp [cellsFrom]
  | cons w ws ih =>
    cases i with
    | zero =>
      simp only [cellsFrom]
      split
      · next hw =>
        have : assocFind (cellsFrom (k + 1) ws) (k + 0) = none := by
          cases hf : assocFind (cellsFrom (k + 1) ws) (k + 0) with
          | none => rfl
          | some v =>
            have := (mem_cellsFrom (mem_of_assocFind hf)).1
            simp at this
        simp only [this, hw, Option.getD_none, List.getD_cons_zero]
      · simp [assocFind]
    | succ i =>
      have hi : k + (i + 1) = k + 1 + i := by omega
      simp only [cellsFrom, hi]
      split
      · simpa using ih (k + 1) i
      · have hne : k ≠ k + 1 + i := by omega
        simpa [assocFind, hne] using ih (k + 1) i

/-- The word at each offset of a loaded sequence (10_state.md R40). -/
theorem Segment.ofWords_read (ws : List Word) (i : Nat) :
    (Segment.ofWords ws).read i = ws.getD i Segment.unlisted := by
  simpa [Segment.ofWords, Segment.read] using cellsFrom_find 0 ws i

/-! ### The segment table -/

theorem Memory.find_put (m : Memory) (id j : Word) (g : Segment) :
    (m.put id g).find j = if j = id then some g else m.find j := by
  simp [Memory.put, Memory.find, assocFind_insert, BitVec.toNat_eq]

theorem Memory.find_remove (m : Memory) (id j : Word) :
    (m.remove id).find j = if j = id then none else m.find j := by
  simp [Memory.remove, Memory.find, assocFind_erase, BitVec.toNat_eq]

theorem Memory.mapped_put (m : Memory) (id j : Word) (g : Segment) :
    (m.put id g).mapped j = (decide (j = id) || m.mapped j) := by
  unfold Memory.mapped
  rw [Memory.find_put]
  by_cases h : j = id <;> simp [h]

theorem Memory.mapped_remove (m : Memory) (id j : Word) :
    (m.remove id).mapped j = (!decide (j = id) && m.mapped j) := by
  unfold Memory.mapped
  rw [Memory.find_remove]
  by_cases h : j = id <;> simp [h]

/-- Mapped(id) and what a found segment says of Len(id) (20_memory.md R47). -/
theorem Memory.mapped_iff {m : Memory} {id : Word} :
    m.mapped id = true ↔ ∃ g, m.find id = some g ∧ m.len id = g.len := by
  unfold Memory.mapped Memory.len
  cases m.find id <;> simp

theorem Memory.mapped_eq_false {m : Memory} {id : Word} : m.mapped id = false ↔ m.find id = none := by
  unfold Memory.mapped
  cases m.find id <;> simp

/-- Len(id) depends on the segment alone. -/
theorem Memory.len_congr {m m' : Memory} {id : Word} (h : m'.find id = m.find id) :
    m'.len id = m.len id := by
  simp [Memory.len, h]

theorem Memory.put_wf {m : Memory} {g : Segment} (id : Word) (hm : m.wf) (hg : g.wf) :
    (m.put id g).wf := by
  refine ⟨rising_insert _ _ hm.1, fun p hp => ?_⟩
  rcases mem_assocInsert hp with hp | hp
  · subst hp
    exact ⟨id.isLt, hg⟩
  · exact hm.2 p hp

theorem Memory.remove_wf {m : Memory} (id : Word) (hm : m.wf) : (m.remove id).wf :=
  ⟨rising_erase _ hm.1, fun p hp => hm.2 p (mem_assocErase hp).1⟩

theorem Memory.find_wf {m : Memory} {id : Word} {g : Segment} (hm : m.wf) (h : m.find id = some g) :
    g.wf :=
  (hm.2 _ (mem_of_assocFind h)).2

/-- Translate answers a segment exactly where the identifier is mapped and the offset in range
(20_memory.md R50). -/
theorem Memory.translate_ok {m : Memory} {id off : Word} {g : Segment} :
    m.translate id off = .ok g ↔ m.find id = some g ∧ off.toNat < g.len := by
  unfold Memory.translate
  cases m.find id with
  | none => simp
  | some h =>
    by_cases hl : h.len ≤ off.toNat
    · simp only [if_pos hl]
      constructor
      · intro e
        cases e
      · rintro ⟨e, hg⟩
        cases e
        omega
    · simp only [if_neg hl, Except.ok.injEq, Option.some.injEq]
      constructor
      · rintro rfl
        exact ⟨rfl, by omega⟩
      · exact fun e => e.1

/-- Translate's failures (20_memory.md R50). -/
theorem Memory.translate_error {m : Memory} {id off : Word} {c : FaultCause} :
    m.translate id off = .error c ↔
      (m.find id = none ∧ c = .unmappedId) ∨
        ∃ g, m.find id = some g ∧ g.len ≤ off.toNat ∧ c = .offsetOutOfRange := by
  unfold Memory.translate
  cases m.find id with
  | none => simp [eq_comm]
  | some h =>
    by_cases hl : h.len ≤ off.toNat
    · simp [hl, eq_comm]
    · simp [hl]

/-- SegRead (20_memory.md R51). -/
theorem Memory.segRead_ok {m : Memory} {id off v : Word} :
    m.segRead id off = .ok v ↔ ∃ g, m.find id = some g ∧ off.toNat < g.len ∧ v = g.read off.toNat := by
  unfold Memory.segRead
  cases ht : m.translate id off with
  | error c =>
    simp only [reduceCtorEq, false_iff]
    rintro ⟨g, h1, h2, -⟩
    rw [Memory.translate_ok.mpr ⟨h1, h2⟩] at ht
    cases ht
  | ok g =>
    obtain ⟨h1, h2⟩ := Memory.translate_ok.mp ht
    simp only [Except.ok.injEq]
    constructor
    · rintro rfl
      exact ⟨g, h1, h2, rfl⟩
    · rintro ⟨g', h3, -, rfl⟩
      rw [h1] at h3
      cases h3
      rfl

/-- SegRead and SegWrite fail as the translation does (20_memory.md R51, R52). -/
theorem Memory.segRead_error {m : Memory} {id off : Word} {c : FaultCause} :
    m.segRead id off = .error c ↔ m.translate id off = .error c := by
  unfold Memory.segRead
  cases m.translate id off <;> simp

theorem Memory.segWrite_error {m : Memory} {id off v : Word} {c : FaultCause} :
    m.segWrite id off v = .error c ↔ m.translate id off = .error c := by
  unfold Memory.segWrite
  cases m.translate id off <;> simp

/-- SegWrite (20_memory.md R52). -/
theorem Memory.segWrite_ok {m m' : Memory} {id off v : Word} :
    m.segWrite id off v = .ok m' ↔
      ∃ g, m.find id = some g ∧ off.toNat < g.len ∧ m' = m.put id (g.write off.toNat v) := by
  unfold Memory.segWrite
  cases ht : m.translate id off with
  | error c =>
    simp only [reduceCtorEq, false_iff]
    rintro ⟨g, h1, h2, -⟩
    rw [Memory.translate_ok.mpr ⟨h1, h2⟩] at ht
    cases ht
  | ok g =>
    obtain ⟨h1, h2⟩ := Memory.translate_ok.mp ht
    simp only [Except.ok.injEq]
    constructor
    · rintro rfl
      exact ⟨g, h1, h2, rfl⟩
    · rintro ⟨g', h3, -, rfl⟩
      rw [h1] at h3
      cases h3
      rfl

/-- A write below the length keeps the memory's canonical form. -/
theorem Memory.segWrite_wf {m m' : Memory} {id off v : Word} (hm : m.wf)
    (h : m.segWrite id off v = .ok m') : m'.wf := by
  obtain ⟨g, h1, h2, rfl⟩ := Memory.segWrite_ok.mp h
  exact Memory.put_wf id hm (Segment.write_wf (Memory.find_wf hm h1) h2)

theorem Memory.wordAt_eq_some {m : Memory} {id off v : Word} :
    m.wordAt id off = some v ↔ ∃ g, m.find id = some g ∧ off.toNat < g.len ∧ v = g.read off.toNat := by
  rw [← Memory.segRead_ok]
  unfold Memory.wordAt
  cases m.segRead id off <;> simp

/-- What a program can read of a segment depends on the segment alone. -/
theorem Memory.wordAt_congr {m m' : Memory} {id : Word} (h : m'.find id = m.find id) (off : Word) :
    m'.wordAt id off = m.wordAt id off := by
  simp [Memory.wordAt, Memory.segRead, Memory.translate, h]

/-- What the presence of a segment and its cells are depends on the segment alone (20_memory.md R47). -/
theorem Memory.segment_congr {m m' : Memory} {j : Word} (h : m'.find j = m.find j) :
    m'.mapped j = m.mapped j ∧ m'.len j = m.len j ∧ ∀ off : Word, m'.wordAt j off = m.wordAt j off :=
  ⟨by simp [Memory.mapped, h], Memory.len_congr h, Memory.wordAt_congr h⟩

/-- Putting a segment leaves every other segment alone. -/
theorem Memory.put_others {m : Memory} {id j : Word} (g : Segment) (h : j ≠ id) :
    (m.put id g).mapped j = m.mapped j ∧ (m.put id g).len j = m.len j ∧
      ∀ off : Word, (m.put id g).wordAt j off = m.wordAt j off :=
  Memory.segment_congr (by rw [Memory.find_put, if_neg h])

/-- Removing a segment leaves every other segment alone. -/
theorem Memory.remove_others {m : Memory} {id j : Word} (h : j ≠ id) :
    (m.remove id).mapped j = m.mapped j ∧ (m.remove id).len j = m.len j ∧
      ∀ off : Word, (m.remove id).wordAt j off = m.wordAt j off :=
  Memory.segment_congr (by rw [Memory.find_remove, if_neg h])

/-- A word write leaves every other word, every length and every mapping alone (20_memory.md R52). -/
theorem Memory.segWrite_others {m m' : Memory} {id off v : Word} (h : m.segWrite id off v = .ok m') :
    (∀ j k : Word, ¬(j = id ∧ k = off) → m'.wordAt j k = m.wordAt j k) ∧
      ∀ j : Word, m'.mapped j = m.mapped j ∧ m'.len j = m.len j := by
  obtain ⟨g, hg, -, rfl⟩ := Memory.segWrite_ok.mp h
  refine ⟨fun j k hne => ?_, fun j => ?_⟩
  · by_cases hj : j = id
    · subst hj
      have hk : k.toNat ≠ off.toNat := fun e => hne ⟨rfl, BitVec.eq_of_toNat_eq e⟩
      by_cases hl : g.len ≤ k.toNat <;>
        simp [Memory.wordAt, Memory.segRead, Memory.translate, Memory.find_put, hg, hl,
          Segment.write_read_ne g _ _ v hk]
    · exact (Memory.put_others _ hj).2.2 k
  · by_cases hj : j = id
    · subst hj
      simp [Memory.mapped, Memory.len, Memory.find_put, hg]
    · exact ⟨(Memory.put_others _ hj).1, (Memory.put_others _ hj).2.1⟩

/-- There is no word to read exactly where the segment is unmapped or the offset past its end, which
its length alone says: an unmapped one has length 0 (20_memory.md R50; log 17). -/
theorem Memory.wordAt_eq_none {m : Memory} {id off : Word} :
    m.wordAt id off = none ↔ m.len id ≤ off.toNat := by
  unfold Memory.wordAt Memory.segRead Memory.translate Memory.len
  cases m.find id with
  | none => simp
  | some g => by_cases h : g.len ≤ off.toNat <;> simp [h]

/-! ### The total of the mapped words -/

theorem totalWords_put_new {m : Memory} {id : Word} (g : Segment) (h : m.find id = none) :
    (m.put id g).totalWords = m.totalWords + g.len := by
  unfold Memory.find at h
  unfold Memory.put Memory.totalWords
  induction m with
  | nil => simp [assocInsert]
  | cons q rest ih =>
    obtain ⟨n, u⟩ := q
    have hn : n ≠ id.toNat := by
      rintro rfl
      simp [assocFind] at h
    have hr : assocFind rest id.toNat = none := by simpa [assocFind, hn] using h
    simp only [assocInsert]
    split
    · simp
      omega
    · simp only [List.map_cons, List.sum_cons, ih hr]
      omega

theorem totalWords_put_old {m : Memory} {id : Word} {g : Segment} (g' : Segment)
    (hr : Rising m) (h : m.find id = some g) :
    (m.put id g').totalWords + g.len = m.totalWords + g'.len := by
  unfold Memory.find at h
  unfold Memory.put Memory.totalWords
  induction m with
  | nil => simp at h
  | cons q rest ih =>
    obtain ⟨n, u⟩ := q
    obtain ⟨h1, h2⟩ := rising_cons.mp hr
    by_cases hn : n = id.toNat
    · subst hn
      have hu : u = g := by simpa [assocFind] using h
      subst hu
      simp [assocInsert]
      omega
    · have hf : assocFind rest id.toNat = some g := by simpa [assocFind, hn] using h
      have hlt : ¬ id.toNat < n := by
        have := h1 _ (mem_of_assocFind hf)
        simp only at this
        omega
      have := ih h2 hf
      simp only [assocInsert, if_neg hlt, if_neg hn, List.map_cons, List.sum_cons]
      omega

theorem totalWords_remove {m : Memory} {id : Word} : (m.remove id).totalWords ≤ m.totalWords := by
  unfold Memory.remove Memory.totalWords
  induction m with
  | nil => simp [assocErase]
  | cons q rest ih =>
    obtain ⟨n, u⟩ := q
    simp only [assocErase]
    split
    · simp only [List.map_cons, List.sum_cons]
      omega
    · simp only [List.map_cons, List.sum_cons]
      omega

/-- Len(0) is part of the total. -/
theorem len_le_totalWords {m : Memory} {id : Word} {g : Segment} (h : m.find id = some g) :
    g.len ≤ m.totalWords := by
  have := mem_of_assocFind h
  unfold Memory.totalWords
  exact List.le_sum_of_mem (List.mem_map.mpr ⟨_, this, rfl⟩)

end Sys2Proof.Machine
end

