-- ==== Sys2Proof/Laws/State.lean ====
section
/-! SUPPORT. One lemma for each field and each update of the state, all true by rfl, and the register
reads of each update. No later proof unfolds a record update. -/

namespace Sys2Proof.Machine

/-! ### State.setReg -/

@[simp] theorem State.setReg_pc (s : State) (i : Reg) (v : Word) : (s.setReg i v).pc = s.pc := rfl
@[simp] theorem State.setReg_mem (s : State) (i : Reg) (v : Word) : (s.setReg i v).mem = s.mem := rfl
@[simp] theorem State.setReg_free (s : State) (i : Reg) (v : Word) : (s.setReg i v).free = s.free := rfl
@[simp] theorem State.setReg_nextId (s : State) (i : Reg) (v : Word) : (s.setReg i v).nextId = s.nextId := rfl
@[simp] theorem State.setReg_status (s : State) (i : Reg) (v : Word) : (s.setReg i v).status = s.status := rfl
@[simp] theorem State.setReg_waitingInput (s : State) (i : Reg) (v : Word) : (s.setReg i v).waitingInput = s.waitingInput := rfl
@[simp] theorem State.setReg_out (s : State) (i : Reg) (v : Word) : (s.setReg i v).out = s.out := rfl
@[simp] theorem State.setReg_input (s : State) (i : Reg) (v : Word) : (s.setReg i v).input = s.input := rfl
@[simp] theorem State.setReg_params (s : State) (i : Reg) (v : Word) : (s.setReg i v).params = s.params := rfl

/-! ### State.setPc -/

@[simp] theorem State.setPc_regs (s : State) (t : Word) : (s.setPc t).regs = s.regs := rfl
@[simp] theorem State.setPc_pc (s : State) (t : Word) : (s.setPc t).pc = t := rfl
@[simp] theorem State.setPc_mem (s : State) (t : Word) : (s.setPc t).mem = s.mem := rfl
@[simp] theorem State.setPc_free (s : State) (t : Word) : (s.setPc t).free = s.free := rfl
@[simp] theorem State.setPc_nextId (s : State) (t : Word) : (s.setPc t).nextId = s.nextId := rfl
@[simp] theorem State.setPc_status (s : State) (t : Word) : (s.setPc t).status = s.status := rfl
@[simp] theorem State.setPc_waitingInput (s : State) (t : Word) : (s.setPc t).waitingInput = s.waitingInput := rfl
@[simp] theorem State.setPc_out (s : State) (t : Word) : (s.setPc t).out = s.out := rfl
@[simp] theorem State.setPc_input (s : State) (t : Word) : (s.setPc t).input = s.input := rfl
@[simp] theorem State.setPc_params (s : State) (t : Word) : (s.setPc t).params = s.params := rfl
@[simp] theorem State.setPc_reg (s : State) (t : Word) (r : Reg) : (s.setPc t).reg r = s.reg r := rfl

/-! ### State.setMem -/

@[simp] theorem State.setMem_regs (s : State) (m : Memory) : (s.setMem m).regs = s.regs := rfl
@[simp] theorem State.setMem_pc (s : State) (m : Memory) : (s.setMem m).pc = s.pc := rfl
@[simp] theorem State.setMem_mem (s : State) (m : Memory) : (s.setMem m).mem = m := rfl
@[simp] theorem State.setMem_free (s : State) (m : Memory) : (s.setMem m).free = s.free := rfl
@[simp] theorem State.setMem_nextId (s : State) (m : Memory) : (s.setMem m).nextId = s.nextId := rfl
@[simp] theorem State.setMem_status (s : State) (m : Memory) : (s.setMem m).status = s.status := rfl
@[simp] theorem State.setMem_waitingInput (s : State) (m : Memory) : (s.setMem m).waitingInput = s.waitingInput := rfl
@[simp] theorem State.setMem_out (s : State) (m : Memory) : (s.setMem m).out = s.out := rfl
@[simp] theorem State.setMem_input (s : State) (m : Memory) : (s.setMem m).input = s.input := rfl
@[simp] theorem State.setMem_params (s : State) (m : Memory) : (s.setMem m).params = s.params := rfl
@[simp] theorem State.setMem_reg (s : State) (m : Memory) (r : Reg) : (s.setMem m).reg r = s.reg r := rfl

/-! ### State.setFree -/

@[simp] theorem State.setFree_regs (s : State) (l : List Word) : (s.setFree l).regs = s.regs := rfl
@[simp] theorem State.setFree_pc (s : State) (l : List Word) : (s.setFree l).pc = s.pc := rfl
@[simp] theorem State.setFree_mem (s : State) (l : List Word) : (s.setFree l).mem = s.mem := rfl
@[simp] theorem State.setFree_free (s : State) (l : List Word) : (s.setFree l).free = l := rfl
@[simp] theorem State.setFree_nextId (s : State) (l : List Word) : (s.setFree l).nextId = s.nextId := rfl
@[simp] theorem State.setFree_status (s : State) (l : List Word) : (s.setFree l).status = s.status := rfl
@[simp] theorem State.setFree_waitingInput (s : State) (l : List Word) : (s.setFree l).waitingInput = s.waitingInput := rfl
@[simp] theorem State.setFree_out (s : State) (l : List Word) : (s.setFree l).out = s.out := rfl
@[simp] theorem State.setFree_input (s : State) (l : List Word) : (s.setFree l).input = s.input := rfl
@[simp] theorem State.setFree_params (s : State) (l : List Word) : (s.setFree l).params = s.params := rfl
@[simp] theorem State.setFree_reg (s : State) (l : List Word) (r : Reg) : (s.setFree l).reg r = s.reg r := rfl

/-! ### State.setNextId -/

@[simp] theorem State.setNextId_regs (s : State) (n : Nat) : (s.setNextId n).regs = s.regs := rfl
@[simp] theorem State.setNextId_pc (s : State) (n : Nat) : (s.setNextId n).pc = s.pc := rfl
@[simp] theorem State.setNextId_mem (s : State) (n : Nat) : (s.setNextId n).mem = s.mem := rfl
@[simp] theorem State.setNextId_free (s : State) (n : Nat) : (s.setNextId n).free = s.free := rfl
@[simp] theorem State.setNextId_nextId (s : State) (n : Nat) : (s.setNextId n).nextId = n := rfl
@[simp] theorem State.setNextId_status (s : State) (n : Nat) : (s.setNextId n).status = s.status := rfl
@[simp] theorem State.setNextId_waitingInput (s : State) (n : Nat) : (s.setNextId n).waitingInput = s.waitingInput := rfl
@[simp] theorem State.setNextId_out (s : State) (n : Nat) : (s.setNextId n).out = s.out := rfl
@[simp] theorem State.setNextId_input (s : State) (n : Nat) : (s.setNextId n).input = s.input := rfl
@[simp] theorem State.setNextId_params (s : State) (n : Nat) : (s.setNextId n).params = s.params := rfl
@[simp] theorem State.setNextId_reg (s : State) (n : Nat) (r : Reg) : (s.setNextId n).reg r = s.reg r := rfl

/-! ### State.setStatus -/

@[simp] theorem State.setStatus_regs (s : State) (t : Status) : (s.setStatus t).regs = s.regs := rfl
@[simp] theorem State.setStatus_pc (s : State) (t : Status) : (s.setStatus t).pc = s.pc := rfl
@[simp] theorem State.setStatus_mem (s : State) (t : Status) : (s.setStatus t).mem = s.mem := rfl
@[simp] theorem State.setStatus_free (s : State) (t : Status) : (s.setStatus t).free = s.free := rfl
@[simp] theorem State.setStatus_nextId (s : State) (t : Status) : (s.setStatus t).nextId = s.nextId := rfl
@[simp] theorem State.setStatus_status (s : State) (t : Status) : (s.setStatus t).status = t := rfl
@[simp] theorem State.setStatus_waitingInput (s : State) (t : Status) : (s.setStatus t).waitingInput = s.waitingInput := rfl
@[simp] theorem State.setStatus_out (s : State) (t : Status) : (s.setStatus t).out = s.out := rfl
@[simp] theorem State.setStatus_input (s : State) (t : Status) : (s.setStatus t).input = s.input := rfl
@[simp] theorem State.setStatus_params (s : State) (t : Status) : (s.setStatus t).params = s.params := rfl
@[simp] theorem State.setStatus_reg (s : State) (t : Status) (r : Reg) : (s.setStatus t).reg r = s.reg r := rfl

/-! ### State.setWaiting -/

@[simp] theorem State.setWaiting_regs (s : State) (b : Bool) : (s.setWaiting b).regs = s.regs := rfl
@[simp] theorem State.setWaiting_pc (s : State) (b : Bool) : (s.setWaiting b).pc = s.pc := rfl
@[simp] theorem State.setWaiting_mem (s : State) (b : Bool) : (s.setWaiting b).mem = s.mem := rfl
@[simp] theorem State.setWaiting_free (s : State) (b : Bool) : (s.setWaiting b).free = s.free := rfl
@[simp] theorem State.setWaiting_nextId (s : State) (b : Bool) : (s.setWaiting b).nextId = s.nextId := rfl
@[simp] theorem State.setWaiting_status (s : State) (b : Bool) : (s.setWaiting b).status = s.status := rfl
@[simp] theorem State.setWaiting_waitingInput (s : State) (b : Bool) : (s.setWaiting b).waitingInput = b := rfl
@[simp] theorem State.setWaiting_out (s : State) (b : Bool) : (s.setWaiting b).out = s.out := rfl
@[simp] theorem State.setWaiting_input (s : State) (b : Bool) : (s.setWaiting b).input = s.input := rfl
@[simp] theorem State.setWaiting_params (s : State) (b : Bool) : (s.setWaiting b).params = s.params := rfl
@[simp] theorem State.setWaiting_reg (s : State) (b : Bool) (r : Reg) : (s.setWaiting b).reg r = s.reg r := rfl

/-! ### State.setInput -/

@[simp] theorem State.setInput_regs (s : State) (p : InputPort) : (s.setInput p).regs = s.regs := rfl
@[simp] theorem State.setInput_pc (s : State) (p : InputPort) : (s.setInput p).pc = s.pc := rfl
@[simp] theorem State.setInput_mem (s : State) (p : InputPort) : (s.setInput p).mem = s.mem := rfl
@[simp] theorem State.setInput_free (s : State) (p : InputPort) : (s.setInput p).free = s.free := rfl
@[simp] theorem State.setInput_nextId (s : State) (p : InputPort) : (s.setInput p).nextId = s.nextId := rfl
@[simp] theorem State.setInput_status (s : State) (p : InputPort) : (s.setInput p).status = s.status := rfl
@[simp] theorem State.setInput_waitingInput (s : State) (p : InputPort) : (s.setInput p).waitingInput = s.waitingInput := rfl
@[simp] theorem State.setInput_out (s : State) (p : InputPort) : (s.setInput p).out = s.out := rfl
@[simp] theorem State.setInput_input (s : State) (p : InputPort) : (s.setInput p).input = p := rfl
@[simp] theorem State.setInput_params (s : State) (p : InputPort) : (s.setInput p).params = s.params := rfl
@[simp] theorem State.setInput_reg (s : State) (p : InputPort) (r : Reg) : (s.setInput p).reg r = s.reg r := rfl

/-! ### State.emit -/

@[simp] theorem State.emit_regs (s : State) (b : Byte) : (s.emit b).regs = s.regs := rfl
@[simp] theorem State.emit_pc (s : State) (b : Byte) : (s.emit b).pc = s.pc := rfl
@[simp] theorem State.emit_mem (s : State) (b : Byte) : (s.emit b).mem = s.mem := rfl
@[simp] theorem State.emit_free (s : State) (b : Byte) : (s.emit b).free = s.free := rfl
@[simp] theorem State.emit_nextId (s : State) (b : Byte) : (s.emit b).nextId = s.nextId := rfl
@[simp] theorem State.emit_status (s : State) (b : Byte) : (s.emit b).status = s.status := rfl
@[simp] theorem State.emit_waitingInput (s : State) (b : Byte) : (s.emit b).waitingInput = s.waitingInput := rfl
@[simp] theorem State.emit_out (s : State) (b : Byte) : (s.emit b).out = s.out ++ [b] := rfl
@[simp] theorem State.emit_input (s : State) (b : Byte) : (s.emit b).input = s.input := rfl
@[simp] theorem State.emit_params (s : State) (b : Byte) : (s.emit b).params = s.params := rfl
@[simp] theorem State.emit_reg (s : State) (b : Byte) (r : Reg) : (s.emit b).reg r = s.reg r := rfl

/-! ### State.advance -/

@[simp] theorem State.advance_regs (s : State) : s.advance.regs = s.regs := rfl
@[simp] theorem State.advance_pc (s : State) : s.advance.pc = s.pc + 1#32 := rfl
@[simp] theorem State.advance_mem (s : State) : s.advance.mem = s.mem := rfl
@[simp] theorem State.advance_free (s : State) : s.advance.free = s.free := rfl
@[simp] theorem State.advance_nextId (s : State) : s.advance.nextId = s.nextId := rfl
@[simp] theorem State.advance_status (s : State) : s.advance.status = s.status := rfl
@[simp] theorem State.advance_waitingInput (s : State) : s.advance.waitingInput = s.waitingInput := rfl
@[simp] theorem State.advance_out (s : State) : s.advance.out = s.out := rfl
@[simp] theorem State.advance_input (s : State) : s.advance.input = s.input := rfl
@[simp] theorem State.advance_params (s : State) : s.advance.params = s.params := rfl
@[simp] theorem State.advance_reg (s : State) (r : Reg) : s.advance.reg r = s.reg r := rfl

/-! ### State.halt -/

@[simp] theorem State.halt_regs (s : State) : s.halt.regs = s.regs := rfl
@[simp] theorem State.halt_pc (s : State) : s.halt.pc = s.pc := rfl
@[simp] theorem State.halt_mem (s : State) : s.halt.mem = s.mem := rfl
@[simp] theorem State.halt_free (s : State) : s.halt.free = s.free := rfl
@[simp] theorem State.halt_nextId (s : State) : s.halt.nextId = s.nextId := rfl
@[simp] theorem State.halt_status (s : State) : s.halt.status = .halted := rfl
@[simp] theorem State.halt_waitingInput (s : State) : s.halt.waitingInput = s.waitingInput := rfl
@[simp] theorem State.halt_out (s : State) : s.halt.out = s.out := rfl
@[simp] theorem State.halt_input (s : State) : s.halt.input = s.input := rfl
@[simp] theorem State.halt_params (s : State) : s.halt.params = s.params := rfl
@[simp] theorem State.halt_reg (s : State) (r : Reg) : s.halt.reg r = s.reg r := rfl

/-! ### State.faulted -/

@[simp] theorem State.faulted_regs (s : State) (c : FaultCause) : (s.faulted c).regs = s.regs := rfl
@[simp] theorem State.faulted_pc (s : State) (c : FaultCause) : (s.faulted c).pc = s.pc := rfl
@[simp] theorem State.faulted_mem (s : State) (c : FaultCause) : (s.faulted c).mem = s.mem := rfl
@[simp] theorem State.faulted_free (s : State) (c : FaultCause) : (s.faulted c).free = s.free := rfl
@[simp] theorem State.faulted_nextId (s : State) (c : FaultCause) : (s.faulted c).nextId = s.nextId := rfl
@[simp] theorem State.faulted_status (s : State) (c : FaultCause) : (s.faulted c).status = .faulted (s.record c) := rfl
@[simp] theorem State.faulted_waitingInput (s : State) (c : FaultCause) : (s.faulted c).waitingInput = s.waitingInput := rfl
@[simp] theorem State.faulted_out (s : State) (c : FaultCause) : (s.faulted c).out = s.out := rfl
@[simp] theorem State.faulted_input (s : State) (c : FaultCause) : (s.faulted c).input = s.input := rfl
@[simp] theorem State.faulted_params (s : State) (c : FaultCause) : (s.faulted c).params = s.params := rfl
@[simp] theorem State.faulted_reg (s : State) (c : FaultCause) (r : Reg) : (s.faulted c).reg r = s.reg r := rfl

/-! ### Register reads -/

@[simp] theorem State.setReg_reg_same (s : State) (i : Reg) (v : Word) : (s.setReg i v).reg i = v := by
  simp [State.setReg, State.reg]

theorem State.setReg_reg_ne (s : State) (i r : Reg) (v : Word) (h : r ≠ i) :
    (s.setReg i v).reg r = s.reg r := by
  have h' : (i : Nat) ≠ r := fun e => h (Fin.ext e.symm)
  simp [State.setReg, State.reg, h']

/-- Every register holds 0 at reset (70_reset_and_hazards.md R180). -/
@[simp] theorem State.reset_reg (r : Reg) : State.reset.reg r = 0#32 := by
  simp [State.reset, State.reg]

/-! ### Fetch depends on the segment table and pc alone -/

theorem State.fetch_congr {s t : State} (hm : t.mem = s.mem) (hp : t.pc = s.pc) : t.fetch = s.fetch := by
  simp only [State.fetch, hm, hp]

end Sys2Proof.Machine
end

