-- ==== Sys2Proof/Laws/Ops.lean ====
section
/-! SUPPORT. For each shared operation, what it can do, said once; and that the segment manager's
operations and the reset keep the memory's canonical form. -/

namespace Sys2Proof.Machine

/-! ### Taking a fault -/

/-- A raised fault is a next state, the state with the fault's record as its status. -/
theorem raise_next {s t : State} {c : FaultCause} : raise s c = .next t ↔ t = s.faulted c := by
  simp [raise, eq_comm]

@[simp] theorem State.record_pc (s : State) (c : FaultCause) : (s.record c).pc = s.pc := rfl
@[simp] theorem State.record_word (s : State) (c : FaultCause) : (s.record c).word = s.fetch := rfl
@[simp] theorem State.record_kind (s : State) (c : FaultCause) : (s.record c).kind = c.kind := rfl
@[simp] theorem State.record_code (s : State) (c : FaultCause) : (s.record c).code = c.kind.code := rfl
@[simp] theorem State.record_cause (s : State) (c : FaultCause) : (s.record c).cause = c := rfl

/-! ### Tests of a value -/

@[simp] theorem isZero_iff {v : Word} : isZero v = true ↔ v = 0#32 := by simp [isZero]

@[simp] theorem aboveByte_iff {v : Word} : aboveByte v = true ↔ 255 < v.toNat := by simp [aboveByte]

/-! ### The capacity -/

/-- A total is over the capacity when the capacity is bounded and below it (20_memory.md R69). -/
theorem State.overCap_iff {s : State} {n : Nat} :
    s.overCap n = true ↔ ∃ cap, s.params.capWords = some cap ∧ cap < n := by
  unfold State.overCap
  cases s.params.capWords <;> simp

/-- An unbounded capacity is never exceeded (20_memory.md R69). -/
theorem State.overCap_unbounded {s : State} (h : s.params.capWords = none) (n : Nat) :
    s.overCap n = false := by
  simp [State.overCap, h]

/-! ### The segment manager -/

theorem State.issuedId_cons {s : State} {id : Word} {rest : List Word} (h : s.free = id :: rest) :
    s.issuedId = id := by
  simp [State.issuedId, h]

theorem State.issuedId_nil {s : State} (h : s.free = []) : s.issuedId = BitVec.ofNat 32 s.nextId := by
  simp [State.issuedId, h]

/-- What SegMap does when it answers an identifier (20_memory.md R55). -/
theorem State.segMap_ok {s t : State} {n id : Word} (h : s.segMap n = .ok (id, t)) :
    s.overCap (s.mem.totalWords + n.toNat) = false ∧
    ((∃ rest, s.free = id :: rest ∧
        t = (s.setFree rest).setMem (s.mem.put id (Segment.zeros n.toNat))) ∨
      (s.free = [] ∧ s.nextId ≤ 2 ^ 32 - 1 ∧ id = BitVec.ofNat 32 s.nextId ∧
        t = (s.setNextId (s.nextId + 1)).setMem (s.mem.put id (Segment.zeros n.toNat)))) := by
  unfold State.segMap at h
  split at h
  · cases h
  · next hc =>
    refine ⟨by simpa using hc, ?_⟩
    split at h
    · next id' rest hf =>
      simp only [Except.ok.injEq, Prod.mk.injEq] at h
      rw [State.issuedId_cons hf] at h
      obtain ⟨rfl, rfl⟩ := h
      exact .inl ⟨rest, hf, rfl⟩
    · next hf =>
      split at h
      · cases h
      · next hn =>
        simp only [Except.ok.injEq, Prod.mk.injEq] at h
        rw [State.issuedId_nil hf] at h
        obtain ⟨rfl, rfl⟩ := h
        exact .inr ⟨hf, by omega, rfl, rfl⟩

/-- The identifier SegMap answers, and that no other segment is touched (20_memory.md R55). -/
theorem State.segMap_ok_issued {s t : State} {n id : Word} (h : s.segMap n = .ok (id, t)) :
    id = s.issuedId ∧ t.mem = s.mem.put id (Segment.zeros n.toNat) := by
  obtain ⟨-, ⟨rest, hf, rfl⟩ | ⟨hf, -, rfl, rfl⟩⟩ := State.segMap_ok h
  · exact ⟨(State.issuedId_cons hf).symm, rfl⟩
  · exact ⟨(State.issuedId_nil hf).symm, rfl⟩

/-- When SegMap fails: the storage check first, then the identifiers (20_memory.md R55, R56). -/
theorem State.segMap_error {s : State} {n : Word} {c : FaultCause} :
    s.segMap n = .error c ↔
      (s.overCap (s.mem.totalWords + n.toNat) = true ∧ c = .storage) ∨
      (s.overCap (s.mem.totalWords + n.toNat) = false ∧ s.free = [] ∧ 2 ^ 32 - 1 < s.nextId ∧ c = .ids) := by
  unfold State.segMap
  constructor
  · intro h
    split at h
    · next hc => cases h; exact .inl ⟨hc, rfl⟩
    · next hc =>
      split at h
      · cases h
      · next hf =>
        split at h
        · next hn => cases h; exact .inr ⟨by simpa using hc, hf, hn, rfl⟩
        · cases h
  · rintro (⟨hc, rfl⟩ | ⟨hc, hf, hn, rfl⟩)
    · rw [if_pos hc]
    · rw [if_neg (by simp [hc]), hf]
      exact if_pos hn

/-- What SegUnmap does (20_memory.md R57). -/
theorem State.segUnmap_ok {s t : State} {id : Word} :
    s.segUnmap id = .ok t ↔
      id ≠ 0#32 ∧ s.mem.mapped id = true ∧ t = (s.setMem (s.mem.remove id)).setFree (id :: s.free) := by
  unfold State.segUnmap
  constructor
  · intro h
    split at h
    · cases h
    · next h0 =>
      split at h
      · next hm => cases h; exact ⟨fun e => h0 (isZero_iff.mpr e), hm, rfl⟩
      · cases h
  · rintro ⟨h0, hm, rfl⟩
    rw [if_neg (fun e => h0 (isZero_iff.mp e)), if_pos hm]

/-- When SegUnmap fails: identifier 0 first, then an unmapped one (20_memory.md R57). -/
theorem State.segUnmap_error {s : State} {id : Word} {c : FaultCause} :
    s.segUnmap id = .error c ↔
      (id = 0#32 ∧ c = .unmapSegment0) ∨ (id ≠ 0#32 ∧ s.mem.mapped id = false ∧ c = .unmappedId) := by
  unfold State.segUnmap
  constructor
  · intro h
    split at h
    · next h0 => cases h; exact .inl ⟨isZero_iff.mp h0, rfl⟩
    · next h0 =>
      split at h
      · cases h
      · next hm =>
        cases h
        exact .inr ⟨fun e => h0 (isZero_iff.mpr e), by simpa using hm, rfl⟩
  · rintro (⟨h0, rfl⟩ | ⟨h0, hm, rfl⟩)
    · rw [if_pos (isZero_iff.mpr h0)]
    · rw [if_neg (fun e => h0 (isZero_iff.mp e)), if_neg (by simp [hm])]

/-- What SegReplace0 does (20_memory.md R58). -/
theorem State.segReplace0_ok {s t : State} {id : Word} :
    s.segReplace0 id = .ok t ↔
      ∃ g, s.mem.find id = some g ∧ s.overCap (s.mem.totalWords - s.mem.len 0#32 + g.len) = false ∧
        t = s.setMem (s.mem.put 0#32 g) := by
  unfold State.segReplace0
  constructor
  · intro h
    split at h
    · cases h
    · next g hg =>
      split at h
      · cases h
      · next hc => cases h; exact ⟨g, hg, by simpa using hc, rfl⟩
  · rintro ⟨g, hg, hc, rfl⟩
    simp only [hg]
    exact if_neg (ne_true_of_eq_false hc)

/-- When SegReplace0 fails: an unmapped identifier first, then storage (20_memory.md R58). -/
theorem State.segReplace0_error {s : State} {id : Word} {c : FaultCause} :
    s.segReplace0 id = .error c ↔
      (s.mem.find id = none ∧ c = .unmappedId) ∨
      ∃ g, s.mem.find id = some g ∧ s.overCap (s.mem.totalWords - s.mem.len 0#32 + g.len) = true ∧
        c = .storage := by
  unfold State.segReplace0
  constructor
  · intro h
    split at h
    · next hg => cases h; exact .inl ⟨hg, rfl⟩
    · next g hg =>
      split at h
      · next hc => cases h; exact .inr ⟨g, hg, hc, rfl⟩
      · cases h
  · rintro (⟨hg, rfl⟩ | ⟨g, hg, hc, rfl⟩)
    · simp only [hg]
    · simp only [hg]
      exact if_pos hc

/-! ### The canonical form is kept -/

theorem State.segMap_wf {s t : State} {n id : Word} (hm : s.mem.wf) (h : s.segMap n = .ok (id, t)) :
    t.mem.wf := by
  have hz : (Segment.zeros n.toNat).wf := Segment.zeros_wf (by have := n.isLt; omega)
  obtain ⟨-, ⟨rest, -, rfl⟩ | ⟨-, -, -, rfl⟩⟩ := State.segMap_ok h
  · exact Memory.put_wf id hm hz
  · exact Memory.put_wf id hm hz

theorem State.segUnmap_wf {s t : State} {id : Word} (hm : s.mem.wf) (h : s.segUnmap id = .ok t) :
    t.mem.wf := by
  obtain ⟨-, -, rfl⟩ := State.segUnmap_ok.mp h
  exact Memory.remove_wf id hm

theorem State.segReplace0_wf {s t : State} {id : Word} (hm : s.mem.wf)
    (h : s.segReplace0 id = .ok t) : t.mem.wf := by
  obtain ⟨g, hg, -, rfl⟩ := State.segReplace0_ok.mp h
  exact Memory.put_wf 0#32 hm (Memory.find_wf hm hg)

theorem State.reset_mem_wf : State.reset.mem.wf := by decide

/-- A program the port accepts gives a memory in canonical form (10_state.md R40). -/
theorem bootState_mem_wf (p : Params) (answers : List InputAnswer) (tail : InputTail) {prog : List Word}
    (h : prog.length ≤ 2 ^ 32 - 1) : (bootState p answers tail prog).mem.wf := by
  refine ⟨by simp [bootState, Rising], fun q hq => ?_⟩
  have hq' : q = (0, Segment.ofWords prog) := by simpa [bootState] using hq
  subst hq'
  exact ⟨by norm_num, Segment.ofWords_wf h⟩

/-! ### The input port -/

/-- What an input request does when it is answered (10_state.md R41). -/
theorem InputPort.read_some {p q : InputPort} {a : InputAnswer} (h : p.read = some (a, q)) :
    q.consumed = p.consumed ++ [a] ∧ q.after = p.after ∧
      (p.answers = a :: q.answers ∨
        (p.answers = [] ∧ q.answers = [] ∧ p.after = .eosForever ∧ a = .eos)) := by
  unfold InputPort.read at h
  split at h
  · next hp ha =>
    cases h
    exact ⟨rfl, rfl, .inl (by assumption)⟩
  · next hp ha =>
    cases h
    exact ⟨rfl, ha.symm, .inr ⟨hp, rfl, ha, rfl⟩⟩
  · cases h

/-- A request waits exactly when no answer is listed and none will come (10_state.md R33). -/
theorem InputPort.silent_iff {p : InputPort} : p.silent = true ↔ p.answers = [] ∧ p.after = .never := by
  unfold InputPort.silent InputPort.read
  split <;> simp_all

/-! ### One step -/

/-- There is a step exactly when the core is Running and not left waiting (30_encoding.md R79). -/
theorem State.noStep?_eq_none {s : State} :
    s.noStep? = none ↔ s.status = .running ∧ (s.waitingInput = true → s.input.silent = false) := by
  unfold State.noStep?
  cases hs : s.status <;> simp

/-- Everything a step can do when it answers a next state (30_encoding.md R79). -/
theorem step_cases {s t : State} (h : step s = .next t) :
    s.noStep? = none ∧
    ((s.fetch = none ∧ t = s.faulted .fetch) ∨
      (∃ w op, s.fetch = some w ∧ decode w = .invalid op ∧ t = s.faulted (.opcode op)) ∨
      (∃ w i, s.fetch = some w ∧ decode w = .instr i ∧ exec i s = .next t)) := by
  unfold step stepWith at h
  split at h
  · cases h
  · next hn =>
    refine ⟨hn, ?_⟩
    split at h
    · next hf => exact .inl ⟨hf, raise_next.mp h⟩
    · next w hf =>
      split at h
      · next op hd => exact .inr (.inl ⟨w, op, hf, hd, raise_next.mp h⟩)
      · next i hd => exact .inr (.inr ⟨w, i, hf, hd, h⟩)

end Sys2Proof.Machine
end

