-- ==== Sys2Proof/Laws/Exec.lean ====
section
/-! SUPPORT. For each instruction, everything its meaning can do, said once. -/

namespace Sys2Proof.Machine

theorem writeAndAdvance_next {s t : State} {i : Reg} {v : Word} :
    writeAndAdvance s i v = .next t ↔ t = (s.setReg i v).advance := by
  simp [writeAndAdvance, eq_comm]

/-- CMOV copies or leaves, and advances (40_register_ops.md R100). -/
theorem execCmov_next {a b c : Reg} {s t : State} :
    execCmov a b c s = .next t ↔
      (s.reg c = 0#32 ∧ t = s.advance) ∨ (s.reg c ≠ 0#32 ∧ t = (s.setReg a (s.reg b)).advance) := by
  unfold execCmov
  cases hz : isZero (s.reg c) with
  | true => simp [isZero_iff.mp hz, eq_comm]
  | false =>
    have h0 : s.reg c ≠ 0#32 := fun e => by simp [isZero_iff.mpr e] at hz
    simp [h0, writeAndAdvance_next]

/-- DIV divides or faults (40_register_ops.md R103). -/
theorem execDiv_next {a b c : Reg} {s t : State} :
    execDiv a b c s = .next t ↔
      (s.reg c = 0#32 ∧ t = s.faulted .divideByZero) ∨
      (s.reg c ≠ 0#32 ∧ t = (s.setReg a (s.reg b / s.reg c)).advance) := by
  unfold execDiv
  cases hz : isZero (s.reg c) with
  | true => simp [isZero_iff.mp hz, raise_next]
  | false =>
    have h0 : s.reg c ≠ 0#32 := fun e => by simp [isZero_iff.mpr e] at hz
    simp [h0, writeAndAdvance_next]

/-- SLOAD reads or faults (41_segment_ops.md R120). -/
theorem execSload_next {a b c : Reg} {s t : State} :
    execSload a b c s = .next t ↔
      (∃ v, s.mem.segRead (s.reg b) (s.reg c) = .ok v ∧ t = (s.setReg a v).advance) ∨
      (∃ e, s.mem.segRead (s.reg b) (s.reg c) = .error e ∧ t = s.faulted e) := by
  unfold execSload
  cases s.mem.segRead (s.reg b) (s.reg c) with
  | ok v => simp [eq_comm]
  | error e => simp [raise_next]

/-- SSTORE writes or faults (41_segment_ops.md R121). -/
theorem execSstore_next {a b c : Reg} {s t : State} :
    execSstore a b c s = .next t ↔
      (∃ m, s.mem.segWrite (s.reg a) (s.reg b) (s.reg c) = .ok m ∧ t = (s.setMem m).advance) ∨
      (∃ e, s.mem.segWrite (s.reg a) (s.reg b) (s.reg c) = .error e ∧ t = s.faulted e) := by
  unfold execSstore
  cases s.mem.segWrite (s.reg a) (s.reg b) (s.reg c) with
  | ok m => simp [eq_comm]
  | error e => simp [raise_next]

/-- MAP allocates or faults (41_segment_ops.md R122). -/
theorem execMap_next {b c : Reg} {s t : State} :
    execMap b c s = .next t ↔
      (∃ id u, s.segMap (s.reg c) = .ok (id, u) ∧ t = (u.setReg b id).advance) ∨
      (∃ e, s.segMap (s.reg c) = .error e ∧ t = s.faulted e) := by
  unfold execMap
  cases s.segMap (s.reg c) with
  | ok p =>
    obtain ⟨id, u⟩ := p
    simp [eq_comm]
  | error e => simp [raise_next]

/-- UNMAP releases or faults (41_segment_ops.md R123). -/
theorem execUnmap_next {c : Reg} {s t : State} :
    execUnmap c s = .next t ↔
      (∃ u, s.segUnmap (s.reg c) = .ok u ∧ t = u.advance) ∨
      (∃ e, s.segUnmap (s.reg c) = .error e ∧ t = s.faulted e) := by
  unfold execUnmap
  cases s.segUnmap (s.reg c) with
  | ok u => simp [eq_comm]
  | error e => simp [raise_next]

/-- OUT emits or faults (43_io.md R140). -/
theorem execOut_next {c : Reg} {s t : State} :
    execOut c s = .next t ↔
      ((s.reg c).toNat ≤ 255 ∧ t = (s.emit (lowByte (s.reg c))).advance) ∨
      (255 < (s.reg c).toNat ∧ t = s.faulted .outputRange) := by
  unfold execOut
  by_cases h : 255 < (s.reg c).toNat
  · simp [h, raise_next]
  · have h' : (s.reg c).toNat ≤ 255 := Nat.le_of_not_lt h
    simpa [h, h'] using eq_comm

/-- IN completes with an answer, or begins to wait (43_io.md R141). -/
theorem execIn_next {c : Reg} {s t : State} :
    execIn c s = .next t ↔
      (∃ a p, s.input.read = some (a, p) ∧
        t = (((s.setInput p).setWaiting false).setReg c (answerValue a)).advance) ∨
      (s.input.read = none ∧ t = s.setWaiting true) := by
  unfold execIn
  cases s.input.read with
  | some p =>
    obtain ⟨a, q⟩ := p
    simp [eq_comm]
  | none => simp [eq_comm]

/-- LOADP jumps, replaces segment 0 and jumps, or faults (42_program_control.md R135). -/
theorem execLoadp_next {b c : Reg} {s t : State} :
    execLoadp b c s = .next t ↔
      (s.reg b = 0#32 ∧ t = s.setPc (s.reg c)) ∨
      (s.reg b ≠ 0#32 ∧ ∃ u, s.segReplace0 (s.reg b) = .ok u ∧ t = u.setPc (s.reg c)) ∨
      (s.reg b ≠ 0#32 ∧ ∃ e, s.segReplace0 (s.reg b) = .error e ∧ t = s.faulted e) := by
  unfold execLoadp
  cases hz : isZero (s.reg b) with
  | true => simp [isZero_iff.mp hz, eq_comm]
  | false =>
    have h0 : s.reg b ≠ 0#32 := fun e => by simp [isZero_iff.mpr e] at hz
    cases s.segReplace0 (s.reg b) with
    | ok u =>
      have e : (t = u.setPc (s.reg c)) = (u.setPc (s.reg c) = t) := propext eq_comm
      simp [h0, e]
    | error e => simp [h0, raise_next]

end Sys2Proof.Machine
end

