-- ==== Sys2Proof/Laws/PerInstr.lean ====
section
/-! SUPPORT. Statements for every instruction, one lemma per constructor of Instr. -/

namespace Sys2Proof.Laws

/-- The opcode field of a word, as a number (30_encoding.md R71). -/
theorem fieldOp_toNat (w : Word) : (fieldOp w).toNat = w.toNat / 2 ^ 28 % 2 ^ 4 := by
  rw [fieldOp, extract, BitVec.extractLsb'_toNat, Nat.shiftRight_eq_div_pow]

/-- The number of opcode op above 28 lower bits x has op as its opcode field. -/
theorem opcode_above_28 (op : Fin 14) {x : Nat} (h : x < 2 ^ 28) :
    (fieldOp (BitVec.ofNat 32 (op.val * 2 ^ 28 + x))).toNat = op.val := by
  have ho := op.isLt
  rw [fieldOp_toNat, BitVec.toNat_ofNat]
  generalize op.val = n at ho ⊢
  norm_num at h ⊢
  omega

/-- The opcode field of an RRR word is the opcode it was built with (30_encoding.md R71, R84). -/
theorem fieldOp_encodeRRR (op : Fin 14) (a b c : Reg) : (fieldOp (encodeRRR op a b c)).toNat = op.val := by
  have hx : a.val * 2 ^ 6 + b.val * 2 ^ 3 + c.val < 2 ^ 28 := by
    have ha := a.isLt; have hb := b.isLt; have hc := c.isLt
    norm_num
    omega
  simpa only [encodeRRR, Nat.add_assoc] using opcode_above_28 op hx

/-- The opcode field of an LI word is the opcode it was built with (30_encoding.md R71, R84). -/
theorem fieldOp_encodeLI (op : Fin 14) (a : Reg) (imm : Imm) : (fieldOp (encodeLI op a imm)).toNat = op.val := by
  have hx : a.val * 2 ^ 25 + imm.toNat < 2 ^ 28 := by
    have ha := a.isLt; have hi := imm.isLt
    norm_num at hi ⊢
    omega
  simpa only [encodeLI, Nat.add_assoc] using opcode_above_28 op hx

/-- The opcode field of an instruction's word is the opcode of its operation (30_encoding.md R74). -/
def EncodeOpcode.Statement (i : Instr) : Prop := (fieldOp (encode i)).toNat = (opcodeOf i.op).val

theorem EncodeOpcode.cmov (a b c : Reg) : EncodeOpcode.Statement (.cmov a b c) :=
  fieldOp_encodeRRR _ _ _ _

theorem EncodeOpcode.sload (a b c : Reg) : EncodeOpcode.Statement (.sload a b c) :=
  fieldOp_encodeRRR _ _ _ _

theorem EncodeOpcode.sstore (a b c : Reg) : EncodeOpcode.Statement (.sstore a b c) :=
  fieldOp_encodeRRR _ _ _ _

theorem EncodeOpcode.add (a b c : Reg) : EncodeOpcode.Statement (.add a b c) :=
  fieldOp_encodeRRR _ _ _ _

theorem EncodeOpcode.mul (a b c : Reg) : EncodeOpcode.Statement (.mul a b c) :=
  fieldOp_encodeRRR _ _ _ _

theorem EncodeOpcode.div (a b c : Reg) : EncodeOpcode.Statement (.div a b c) :=
  fieldOp_encodeRRR _ _ _ _

theorem EncodeOpcode.nand (a b c : Reg) : EncodeOpcode.Statement (.nand a b c) :=
  fieldOp_encodeRRR _ _ _ _

theorem EncodeOpcode.halt : EncodeOpcode.Statement .halt :=
  fieldOp_encodeRRR _ _ _ _

theorem EncodeOpcode.map (b c : Reg) : EncodeOpcode.Statement (.map b c) :=
  fieldOp_encodeRRR _ _ _ _

theorem EncodeOpcode.unmap (c : Reg) : EncodeOpcode.Statement (.unmap c) :=
  fieldOp_encodeRRR _ _ _ _

theorem EncodeOpcode.out (c : Reg) : EncodeOpcode.Statement (.out c) :=
  fieldOp_encodeRRR _ _ _ _

theorem EncodeOpcode.inp (c : Reg) : EncodeOpcode.Statement (.inp c) :=
  fieldOp_encodeRRR _ _ _ _

theorem EncodeOpcode.loadp (b c : Reg) : EncodeOpcode.Statement (.loadp b c) :=
  fieldOp_encodeRRR _ _ _ _

theorem EncodeOpcode.li (a : Reg) (imm : Imm) : EncodeOpcode.Statement (.li a imm) :=
  fieldOp_encodeLI _ _ _

end Sys2Proof.Laws
end

