-- ==== Sys2Proof/Laws/Runs.lean ====
section
/-! SUPPORT. Runs, and the segments an operation leaves alone, in the terms of Safety.lean. -/

namespace Sys2Proof.Machine

/-! ### Runs -/

/-- A run without answers of the host is a run. -/
theorem Reaches.runs {s t : State} (h : Reaches s t) : Runs s t := by
  induction h with
  | refl => exact .refl _
  | tail _ hs ih => exact .step ih hs

/-- What a step and an answer of the host both keep holds at the end of every run from a state in
which it holds: the one induction over runs. -/
theorem Runs.keeps {P : State → Prop} (hstep : ∀ s t : State, P s → Machine.step s = .next t → P t)
    (hanswer : ∀ (s : State) (e : InputAnswer), P s → P (s.hostAnswer e)) {s t : State} (hs : P s)
    (h : Runs s t) : P t := by
  induction h with
  | refl => exact hs
  | step _ h ih => exact hstep _ _ ih h
  | answer e _ ih => exact hanswer _ e ih

/-! ### The other segments -/

theorem SameSegmentsBut.of_mem_eq {id : Word} {s t : State} (h : t.mem = s.mem) :
    SameSegmentsBut id s t := by
  intro j _
  rw [h]
  exact ⟨rfl, rfl, fun _ => rfl⟩

theorem SameSegmentsBut.of_put {id : Word} {s t : State} {g : Segment} (h : t.mem = s.mem.put id g) :
    SameSegmentsBut id s t := by
  intro j hj
  rw [h]
  exact Memory.put_others g hj

theorem SameSegmentsBut.of_remove {id : Word} {s t : State} (h : t.mem = s.mem.remove id) :
    SameSegmentsBut id s t := by
  intro j hj
  rw [h]
  exact Memory.remove_others hj

end Sys2Proof.Machine
end

