-- ==== Sys2Proof/Tests/Slice0.lean ====
section
/-! SUPPORT. Tests: expected values from spec/95_test_vectors.md (its row is named) or worked by hand from
the rule named. Then, for every statement with hypotheses, a concrete state that meets them. -/

namespace Sys2Proof.Machine.Tests

/-! ### Helpers -/

/-- Some fields of the next state. -/
def after {α : Type} (r : Result) (f : State → α) : Option α :=
  match r with
  | .next t => some (f t)
  | _ => none

/-- s with some registers set. -/
def withRegs (s : State) (l : List (Reg × Word)) : State := l.foldl (fun s p => s.setReg p.1 p.2) s

/-- One step of the word w, from reset with some registers set. -/
def run1 (w : Word) (l : List (Reg × Word)) : Result :=
  step ((withRegs State.reset l).withFetchWord 32 w.toNat)

/-- A state with the word w at pc, segment 1 = [0, 0, 42], identifier 2 released, next = 3, and
x[k] = k. -/
def demo (w : Word) : State :=
  { State.reset with
    regs := #v[0, 1, 2, 3, 4, 5, 6, 7]
    mem := [(0, Segment.ofWords [w, 0, 0]), (1, ⟨3, [(2, 42)]⟩)]
    free := [2]
    nextId := 3 }

/-- One step of the word w from demo, with some registers set. -/
def demo1 (w : Word) (l : List (Reg × Word)) : Result := step (withRegs (demo w) l)

/-- The kind, code, pc and word of the record of a faulted state. -/
def faultOf (s : State) : Option (FaultKind × Nat × Word × Option Word) :=
  match s.status with
  | .faulted f => some (f.kind, f.code, f.pc, f.word)
  | _ => none

/-! ### Decoding: words written out from 30_encoding.md R72 to R74 -/

theorem test_decode_cmov : decode 0b0000_0000000000000000000_001_010_011 = .instr (.cmov 1 2 3) := by decide
theorem test_decode_sload : decode 0b0001_0000000000000000000_001_010_011 = .instr (.sload 1 2 3) := by decide
theorem test_decode_sstore : decode 0b0010_0000000000000000000_001_010_011 = .instr (.sstore 1 2 3) := by decide
theorem test_decode_add : decode 0b0011_0000000000000000000_001_010_011 = .instr (.add 1 2 3) := by decide
theorem test_decode_mul : decode 0b0100_0000000000000000000_111_000_101 = .instr (.mul 7 0 5) := by decide
theorem test_decode_div : decode 0b0101_0000000000000000000_010_001_000 = .instr (.div 2 1 0) := by decide
theorem test_decode_nand : decode 0b0110_0000000000000000000_011_000_000 = .instr (.nand 3 0 0) := by decide
theorem test_decode_halt : decode 0b0111_1111111111111111111_111_111_111 = .instr .halt := by decide
theorem test_decode_map : decode 0b1000_0000000000000000000_000_010_011 = .instr (.map 2 3) := by decide
theorem test_decode_unmap : decode 0b1001_0000000000000000000_000_000_011 = .instr (.unmap 3) := by decide
theorem test_decode_out : decode 0b1010_0000000000000000000_000_000_110 = .instr (.out 6) := by decide
theorem test_decode_in : decode 0b1011_0000000000000000000_000_000_001 = .instr (.inp 1) := by decide
theorem test_decode_loadp : decode 0b1100_0000000000000000000_000_010_011 = .instr (.loadp 2 3) := by decide
theorem test_decode_li : decode 0b1101_011_0000000000000000001001000 = .instr (.li 3 72) := by decide
theorem test_decode_invalid_14 : decode 0xE0000000 = .invalid 14 := by decide
theorem test_decode_invalid_15 : decode 0xFFFFFFFF = .invalid 15 := by decide

/-- Vector A22: bits 27:9 are ignored. -/
theorem test_decode_ignores_unused : decode 0x3FFFFE49 = .instr (.add 1 1 1) := by decide

/-- The encodings of 95_test_vectors.md P3 and P4. -/
theorem test_encode : [Instr.cmov 7 5 1, .sstore 2 5 4, .sload 6 2 5, .map 7 5, .li 6 11].map encode
    = [0x000001E9, 0x200000AC, 0x10000195, 0x8000003D, 0xDC00000B] := by decide

theorem test_table_word : decodeTableWord 32 0xB0000001 = some (.inp 1) := by decide

/-! ### Well-formedness: each check refuses an ill-formed instruction (30_encoding.md R84) -/

theorem test_wf_accepts : AsmInstr.wellFormed ⟨.li, [.reg 7, .num 33554431]⟩ = true := by decide
theorem test_wf_refuses_register : AsmInstr.check ⟨.add, [.reg 1, .reg 8, .reg 3]⟩ = .error (.register 8) := by decide
theorem test_wf_refuses_immediate :
    AsmInstr.check ⟨.li, [.reg 1, .num 33554432]⟩ = .error (.immediate 33554432) := by decide
theorem test_wf_refuses_count : AsmInstr.check ⟨.halt, [.reg 0]⟩ = .error .operands := by decide
theorem test_wf_refuses_kind : AsmInstr.check ⟨.add, [.reg 1, .num 2, .reg 3]⟩ = .error .operands := by decide

/-! ### The assembler -/

/-- 95_test_vectors.md P1, with a label and a comment. -/
theorem test_assemble_hi :
    (assemble "LI r0, 72\nLI r1, 105 ; i\nOUT r0\n OUT r1\nend: HALT".toList).map (·.map encode) =
      .ok [0xD0000048, 0xD2000069, 0xA0000000, 0xA0000001, 0x70000000] := by decide

/-- 30_encoding.md R84, R85: a label is the offset of the next instruction, and AND takes two words. -/
theorem test_assemble_label :
    assemble "AND r1, r2, r3\nloop: LI r5, loop\nJMP r0, r5".toList =
      .ok [.nand 1 2 3, .nand 1 1 1, .li 5 2, .loadp 0 5] := by decide

/-- The model's own choices (log 18): leading zeros in a register name, two labels on one line. -/
theorem test_assemble_choices :
    (assemble "OUT r007\na: b: LI r1, b".toList).map (·.map encode) = .ok [0xA0000007, 0xD2000001] := by decide
theorem test_assemble_refuses_mnemonic : assemble "SUB r1, r2, r3".toList = .error .mnemonic := by decide
theorem test_assemble_refuses_register :
    assemble "OUT r8".toList = .error (.instr (.register 8)) := by decide

/-! ### Register and arithmetic operations -/

/-- A2. -/
theorem test_cmov_zero : after (run1 0x00000053 [(1, 9), (2, 7), (3, 0)]) (fun t => (t.reg 1, t.pc)) =
    some (9, 1) := by decide
/-- A4: A = C. -/
theorem test_cmov_nonzero : after (run1 0x000000D3 [(3, 4), (2, 8)]) (fun t => t.reg 3) = some 8 := by decide
/-- A5. -/
theorem test_add_wraps : after (run1 0x30000053 [(2, 0xFFFFFFFF), (3, 1)]) (fun t => t.reg 1) = some 0 := by decide
/-- A7: the destination is both sources. -/
theorem test_add_doubles : after (run1 0x30000049 [(1, 5)]) (fun t => (t.reg 1, t.pc)) = some (10, 1) := by decide
/-- A9. -/
theorem test_mul_low_word : after (run1 0x40000053 [(2, 0xFFFFFFFF), (3, 0xFFFFFFFF)]) (fun t => t.reg 1) =
    some 1 := by decide
/-- A13: unsigned. -/
theorem test_div_unsigned : after (run1 0x50000053 [(2, 0xFFFFFFFF), (3, 2)]) (fun t => t.reg 1) =
    some 0x7FFFFFFF := by decide
/-- A15. -/
theorem test_div_by_zero : after (run1 0x50000053 [(1, 6)]) faultOf =
    some (some (.arithmeticError, 3, 0, some 0x50000053)) := by decide
/-- A18. -/
theorem test_nand : after (run1 0x60000053 [(2, 0xF0F0F0F0), (3, 0xFF00FF00)]) (fun t => t.reg 1) =
    some 0x0FFF0FFF := by decide
/-- A20. -/
theorem test_li : after (run1 0xD7FFFFFF []) (fun t => (t.reg 3, t.pc)) = some (0x01FFFFFF, 1) := by decide

/-! ### Memory operations -/

/-- M1. -/
theorem test_sload : after (demo1 0x10000053 [(2, 1), (3, 2)]) (fun t => (t.reg 1, t.pc)) = some (42, 1) := by decide
/-- M2: offset = length. -/
theorem test_sload_out_of_range : after (demo1 0x10000053 [(2, 1), (3, 3)]) faultOf =
    some (some (.boundsError, 2, 0, some 0x10000053)) := by decide
/-- M5. -/
theorem test_sstore : after (demo1 0x20000053 [(1, 1), (2, 2), (3, 99)]) (fun t => t.mem.wordAt 1 2) =
    some (some 99) := by decide
/-- Storing 0 unlists the cell: equal memories are equal data (log 1). -/
theorem test_sstore_zero : after (demo1 0x20000053 [(1, 1), (2, 2), (3, 0)]) (fun t => t.mem.find 1) =
    some (some ⟨3, []⟩) := by decide
/-- M9: the free list first. -/
theorem test_map_free : after (demo1 0x80000020 []) (fun t => (t.reg 4, t.free, t.nextId)) =
    some (2, [], 3) := by decide
/-- M8: from reset, B = C, the length is read before the identifier is written. -/
theorem test_map_fresh : after (run1 0x80000009 [(1, 3)]) (fun t => (t.reg 1, t.nextId, t.mem.find 1)) =
    some (1, 2, some ⟨3, []⟩) := by decide
/-- M11. -/
theorem test_unmap : after (demo1 0x90000003 [(3, 1)]) (fun t => (t.mem.mapped 1, t.free)) =
    some (false, [1, 2]) := by decide
/-- M12. -/
theorem test_unmap_zero : after (demo1 0x90000000 []) faultOf =
    some (some (.boundsError, 2, 0, some 0x90000000)) := by decide

/-! ### Program control, input and output, halt -/

/-- LP1: a jump past the end is accepted here. -/
theorem test_loadp_jump : after (demo1 0xC0000013 [(2, 0), (3, 5)]) (fun t => (t.pc, t.mem, t.fetch)) =
    some (5, (demo 0xC0000013).mem, none) := by decide
/-- P6's shape: segment 0 becomes a copy, and the next fetch reads it. -/
theorem test_loadp_replace : after (demo1 0xC0000013 [(2, 1), (3, 2)]) (fun t => (t.pc, t.fetch, t.mem.mapped 1)) =
    some (2, some 42, true) := by decide
/-- I3. -/
theorem test_out : after (run1 0xA0000000 [(0, 255)]) (fun t => (t.out, t.pc)) = some ([0xFF], 1) := by decide
/-- I4. -/
theorem test_out_range : after (run1 0xA0000001 [(1, 256)]) faultOf =
    some (some (.ioError, 4, 0, some 0xA0000001)) := by decide
/-- I7: a byte 0xFF is not the sentinel. -/
theorem test_in_byte : after (step (((State.reset).hostAnswer (.byte 0xFF)).withFetchWord 32 0xB0000001))
    (fun t => (t.reg 1, t.input.consumed)) = some (0xFF, [.byte 0xFF]) := by decide
/-- I8. -/
theorem test_in_end : after (run1 0xB0000001 []) (fun t => (t.reg 1, t.pc, t.status)) =
    some (0xFFFFFFFF, 1, .running) := by decide
/-- F14. -/
theorem test_halt : after (run1 0x7FFFFFFF []) (fun t => (t.statusPort, t.pc)) = some (.halted 0, 0) := by decide
/-- F4. -/
theorem test_invalid : after (run1 0xE0000000 []) faultOf =
    some (some (.decodeError, 1, 0, some 0xE0000000)) := by decide
/-- F12: the empty program; the record holds no word. -/
theorem test_fetch_fault : after (step State.reset) faultOf = some (some (.boundsError, 2, 0, none)) := by decide
/-- P5's shape: a store into the next word is what the next step fetches. -/
theorem test_self_modify : after (demo1 0x20000053 [(1, 0), (2, 1), (3, 0x70000000)]) State.fetch =
    some (some 0x70000000) := by decide

/-! ### Reset and the program-load port -/

/-- 10_state.md R40: the first byte is bits 31:24. -/
theorem test_big_endian : wordsOfBytes [0xD0, 0x00, 0x00, 0x48] = some [0xD0000048] := by decide
theorem test_loader_refuses : resetWithBytes Config.reference [] .eosForever [0x70, 0, 0] = .error .byteLength := by decide
/-- State.reset is the reset with the empty program (log 12). -/
theorem test_reset_is_empty_program : resetWith Config.reference [] .eosForever [] = .ok State.reset := by decide

/-! ### Witnesses: for every statement with hypotheses, a state and operands that meet them all -/

theorem demo_fetch (w : Word) : (demo w).fetch = some w := by
  refine Memory.wordAt_eq_some.mpr ⟨Segment.ofWords [w, 0, 0], rfl, by simp [demo, State.reset], ?_⟩
  exact (Segment.ofWords_read [w, 0, 0] 0).symm

theorem demo_mapped (w id : Word) : (demo w).mem.mapped id = true ↔ id.toNat = 0 ∨ id.toNat = 1 := by
  by_cases h0 : 0 = id.toNat
  · simp [demo, Memory.mapped, Memory.find, assocFind, ← h0]
  · by_cases h1 : 1 = id.toNat
    · simp [demo, Memory.mapped, Memory.find, assocFind, ← h1]
    · simp [demo, Memory.mapped, Memory.find, assocFind, h0, h1, Ne.symm h0, Ne.symm h1]

/-- The invariant holds in demo, whatever the word at pc. -/
theorem demo_inv (w : Word) : Inv (demo w) where
  mem_wf := by
    refine ⟨by simp [demo, Rising], fun p hp => ?_⟩
    have hp' : p = (0, Segment.ofWords [w, 0, 0]) ∨ p = (1, ⟨3, [(2, 42)]⟩) := by simpa [demo] using hp
    rcases hp' with rfl | rfl
    · exact ⟨by norm_num, Segment.ofWords_wf (by norm_num)⟩
    · exact ⟨by norm_num, by decide⟩
  manager :=
    { zero_mapped := by rw [demo_mapped]; decide
      zero_not_free := by simp [demo]
      free_nodup := by simp [demo]
      next_pos := by simp [demo]
      next_le := by simp [demo]
      covers := fun id h0 => by
        have hz : id.toNat ≠ 0 := fun e => h0 (BitVec.eq_of_toNat_eq (by simpa using e))
        have hf : id ∈ (demo w).free ↔ id.toNat = 2 := by
          simp [demo, BitVec.toNat_eq]
        rw [demo_mapped, hf]
        show _ ↔ id.toNat < 3
        omega
      disjoint := fun id h => by
        have h2 : id = 2 := by simpa [demo] using h
        subst h2
        rw [← Bool.not_eq_true, demo_mapped]
        decide }
  cap := fun c h => by simp [demo, State.reset, Config.reference] at h
  waiting := fun h => by simp [demo, State.reset] at h

/-- demo with a bounded CAP_WORDS that its 6 words fill. -/
def full : State :=
  { demo 0 with params := ⟨some 6, 0, 1, by decide⟩ }

theorem witness_DecodeReadsBackEncode : ∀ k : Op, opcodeMap (opcodeOf k) = k := by
  intro k
  cases k <;> rfl

theorem witness_OnlyUsedBitsDecide :
    (fieldOp 0x30000053).toNat = (opcodeOf .add).val ∧ (fieldOp 0x3FFFFE53).toNat = (opcodeOf .add).val := by
  decide

theorem witness_StepRunsTheDecodedInstruction :
    (demo 0x30000053).status = .running ∧ (demo 0x30000053).waitingInput = false ∧
      (demo 0x30000053).mem.wordAt 0 0 = some 0x30000053 ∧ decode 0x30000053 = .instr (.add 1 2 3) := by
  decide

/-- pc = Len(0), the boundary. -/
theorem witness_FetchPastTheEndFaults :
    ((demo 0).setPc 3).status = .running ∧ ((demo 0).setPc 3).waitingInput = false ∧
      ((demo 0).setPc 3).mem.mapped 0 = true ∧ ((demo 0).setPc 3).mem.len 0 ≤ ((demo 0).setPc 3).pc.toNat := by
  decide

theorem witness_InvalidOpcodeFaults :
    (demo 0xE0000000).status = .running ∧ (demo 0xE0000000).waitingInput = false ∧
      (demo 0xE0000000).mem.wordAt 0 0 = some 0xE0000000 ∧ fieldOp 0xE0000000 = 14#4 := by
  decide

theorem witness_InvalidOpcodeFaults_15 :
    (demo 0xFFFFFFFF).mem.wordAt 0 0 = some 0xFFFFFFFF ∧ fieldOp 0xFFFFFFFF = 15#4 := by
  decide

theorem witness_HaltedAndFaultedAbsorb :
    (demo 0).halt.ended ∧ ((demo 0).faulted .divideByZero).ended ∧
      (demo 0).halt.params = ((demo 0).faulted .divideByZero).params :=
  ⟨by simp [State.ended], by simp [State.ended], rfl⟩

theorem witness_Reaches : Reaches (demo 0).halt (demo 0).halt := .refl _

theorem witness_DivIsTruncatingAndFaultsOnZero : (demo 0).reg 1 ≠ 0 ∧ (demo 0).reg 0 = 0 := by decide

theorem witness_SubtractionFromNandAndAdd : (4 : Reg) ≠ 2 ∧ (5 : Reg) ≠ 2 ∧ (5 : Reg) ≠ 4 := by decide

/-- The last offset of segment 1, then the first past it, then an unmapped identifier. -/
theorem witness_SloadReadsTheCell :
    (demo 0).mem.wordAt ((demo 0).reg 1) ((demo 0).reg 2) = some 42 ∧
      (demo 0).mem.len ((demo 0).reg 1) ≤ ((demo 0).reg 3).toNat ∧
      (demo 0).mem.mapped ((demo 0).reg 2) = false := by
  decide

theorem witness_CellsAreTheMappedInRangeAddresses :
    (demo 0).mem.mapped 2 = false ∧ (demo 0).mem.mapped 1 = true ∧ (demo 0).mem.len 1 ≤ (3 : Word).toNat ∧
      (2 : Word).toNat < (demo 0).mem.len 1 := by
  decide

theorem witness_SstoreWritesOneCell :
    (demo 0).mem.mapped ((demo 0).reg 1) = true ∧
      ((demo 0).reg 2).toNat < (demo 0).mem.len ((demo 0).reg 1) ∧
      (demo 0).mem.len ((demo 0).reg 1) ≤ ((demo 0).reg 3).toNat ∧
      (demo 0).mem.mapped ((demo 0).reg 2) = false := by
  decide

/-- A free identifier left; then none but the last fresh one. -/
theorem witness_MapAllocatesZeroFilled :
    (demo 0).overCap ((demo 0).mem.totalWords + ((demo 0).reg 5).toNat) = false ∧ (demo 0).free = [2] := by
  decide

theorem witness_MapAllocatesZeroFilled_last :
    (((demo 0).setFree []).setNextId (2 ^ 32 - 1)).free = [] ∧
      (((demo 0).setFree []).setNextId (2 ^ 32 - 1)).nextId ≤ 2 ^ 32 - 1 := by
  decide

/-- One word over the capacity; and no identifier left. -/
theorem witness_MapExhaustionFaults :
    full.params.capWords = some 6 ∧ 6 < full.mem.totalWords + (full.reg 1).toNat ∧
      (((demo 0).setFree []).setNextId (2 ^ 32)).free = [] ∧
      2 ^ 32 - 1 < (((demo 0).setFree []).setNextId (2 ^ 32)).nextId := by
  decide

theorem witness_MapNeverExhaustsWithFewSegments :
    Inv (demo 0) ∧ (demo 0).params.capWords = none ∧ (demo 0).mem.length - 1 < 2 ^ 32 - 1 :=
  ⟨demo_inv 0, by decide, by decide⟩

theorem witness_UnmapReleases :
    (demo 0).reg 1 ≠ 0 ∧ (demo 0).mem.mapped ((demo 0).reg 1) = true ∧ (demo 0).reg 0 = 0 ∧
      (demo 0).mem.mapped ((demo 0).reg 2) = false := by
  decide

/-- A release; identifier 2, free, through another release, and then taken by a MAP; a state that
names it. -/
theorem witness_UseAfterUnmapFaults :
    (demo 0).reg 1 ≠ 0 ∧ (demo 0).mem.mapped ((demo 0).reg 1) = true ∧
      after (exec (.unmap 1) (demo 0)) (fun t => t.reg 1) = some ((demo 0).reg 1) ∧
      Inv (demo 0x90000001) ∧ 2 ∈ (demo 0x90000001).free ∧
      after (step (demo 0x90000001)) (fun t => t.free) = some [1, 2] ∧
      Inv (demo 0x8000001B) ∧ after (step (demo 0x8000001B)) (fun t => (t.free, t.reg 3)) = some ([], 2) ∧
      (demo 0).reg 2 ≠ 0 ∧ (demo 0).mem.mapped ((demo 0).reg 2) = false :=
  ⟨by decide, by decide, by decide, demo_inv _, by decide, by decide, demo_inv _, by decide, by decide, by decide⟩

theorem witness_MapReissuesTheLastReleased :
    (demo 0).reg 1 ≠ 0 ∧ (demo 0).mem.mapped ((demo 0).reg 1) = true ∧
      (demo 0).params.capWords = none := by
  decide

theorem witness_FreshIdentifiersCountFromOne :
    State.reset.free = [] ∧ State.reset.nextId = 1 ∧ State.reset.params.capWords = none ∧
      2 ^ 32 - 1 < 2 ^ 32 := by
  decide

/-- A store, a release, a replacement and an allocation, each from a state that meets the invariant. -/
theorem witness_WordsAndLengthsPersist :
    Inv (demo 0) ∧ (demo 0).mem.wordAt 1 2 = some 42 ∧ (demo 0).mem.mapped 1 = true ∧
      after (exec (.sstore 1 2 3) (demo 0)) (fun t => t.mem.wordAt 1 2) = some (some 3) ∧
      after (exec (.unmap 1) (demo 0)) (fun t => t.mem.wordAt 1 2) = some none ∧
      after (exec (.loadp 1 2) (demo 0)) (fun t => t.mem.wordAt 0 2) = some (some 42) ∧
      (demo 0).mem.mapped 2 = false ∧
      after (exec (.map 3 4) (demo 0)) (fun t => t.mem.wordAt 2 3) = some (some 0) :=
  ⟨demo_inv 0, by decide, by decide, by decide, by decide, by decide, by decide, by decide⟩

theorem witness_LoadAfterStoreReadsTheStored :
    (demo 0).mem.mapped ((demo 0).reg 1) = true ∧
      ((demo 0).reg 2).toNat < (demo 0).mem.len ((demo 0).reg 1) := by
  decide

theorem witness_StoreToNextWordIsFetched :
    (demo 0).reg 0 = 0 ∧ (demo 0).reg 1 = (demo 0).pc + 1 ∧ (demo 0).mem.mapped 0 = true ∧
      ((demo 0).pc + 1).toNat < (demo 0).mem.len 0 := by
  decide

theorem witness_LoadpWithZeroIsAJump : (demo 0).reg 0 = 0 := by decide

/-- Mapped and fitting, unmapped, and over a full capacity (segment 1, of 3 words, is longer than
segment 0, of 0). -/
theorem witness_LoadpReplacesSegmentZero :
    (demo 0).reg 1 ≠ 0 ∧ (demo 0).mem.mapped ((demo 0).reg 1) = true ∧
      (demo 0).overCap ((demo 0).mem.totalWords - (demo 0).mem.len 0 + (demo 0).mem.len ((demo 0).reg 1)) = false ∧
      (demo 0).reg 2 ≠ 0 ∧ (demo 0).mem.mapped ((demo 0).reg 2) = false := by
  decide

theorem witness_LoadpReplacesSegmentZero_over :
    let s : State := { full with mem := [(0, ⟨0, []⟩), (1, ⟨6, []⟩)] }
    s.reg 1 ≠ 0 ∧ s.mem.mapped (s.reg 1) = true ∧
      s.overCap (s.mem.totalWords - s.mem.len 0 + s.mem.len (s.reg 1)) = true := by
  decide

theorem witness_ConditionalJumpFromCmovAndLoadp : (7 : Reg) ≠ 0 ∧ (demo 0).reg 0 = 0 := by decide

/-- 255 and 256, where the two clauses meet. -/
theorem witness_OutEmitsOneByteOrFaults :
    ((withRegs (demo 0) [(1, 255)]).reg 1).toNat ≤ 255 ∧ 255 < ((withRegs (demo 0) [(1, 256)]).reg 1).toNat := by
  decide

theorem witness_InWritesTheAnswer :
    ((demo 0).hostAnswer (.byte 255)).input.answers = [.byte 255] ∧
      ((demo 0).hostAnswer .eos).input.answers = [.eos] := by
  decide

theorem witness_EndOfStreamIsSticky :
    State.reset.input.answers = [] ∧ State.reset.input.after = .eosForever := by decide

/-- demo at an IN, with a host that never answers. -/
def silentDemo : State := (demo 0xB0000001).setInput ⟨[], .never, []⟩

theorem witness_WaitSurvivesAndAnswerEndsIt :
    silentDemo.status = .running ∧ silentDemo.waitingInput = false ∧ silentDemo.fetch = some 0xB0000001 ∧
      decode 0xB0000001 = .instr (.inp 1) ∧ silentDemo.input.answers = [] ∧
      silentDemo.input.after = .never := by
  decide

/-- A step that emits a byte, and then an answer of the host. -/
theorem witness_ObservationsOnlyGrow :
    ∃ t, Runs (demo 0xA0000001) t ∧ t.out = [1] :=
  ⟨_, .answer .eos (.step (.refl _) rfl), by decide⟩

theorem witness_OneByteOrOneAnswerAStep :
    after (step (demo 0xA0000001)) (fun t => t.out) = some [1] ∧
      after (step (demo 0xB0000001)) (fun t => t.input.consumed) = some [.eos] := by
  decide

theorem witness_PseudoInstructionsAreExact : (demo 0).reg 0 = 0 := by decide

/-- A form that leaves memory alone, and each of the four that name a part of it. -/
theorem witness_EveryInstructionKeepsItsFrame :
    after (exec (.add 1 2 3) (demo 0)) (fun t => t.reg 1) = some 5 ∧
      after (exec (.sstore 1 2 3) (demo 0)) (fun t => (t.mem.wordAt 1 2, t.mem.wordAt 1 1)) =
        some (some 3, some 0) ∧
      (demo 0).issuedId = 2 ∧ after (exec (.map 3 4) (demo 0)) (fun t => (t.reg 3, t.mem.len 2)) = some (2, 4) ∧
      after (exec (.unmap 1) (demo 0)) (fun t => (t.mem.mapped 1, t.mem.mapped 0)) = some (false, true) ∧
      after (exec (.loadp 1 2) (demo 0)) (fun t => (t.mem.wordAt 0 2, t.mem.wordAt 1 2)) =
        some (some 42, some 42) := by
  decide

/-- Two states that differ in x[4] alone, and an instruction that does not read it. -/
theorem witness_OnlyReadRegistersMatter :
    SameButRegs (demo 0) ((demo 0).setReg 4 9) ∧
      (∀ r ∈ readRegs (.add 1 2 3), ((demo 0).setReg 4 9).reg r = (demo 0).reg r) ∧
      after (exec (.add 1 2 3) (demo 0)) (fun t => t.reg 1) = some 5 :=
  ⟨rfl, by decide, by decide⟩

/-- A completing instruction, a halt, a fault, a wait and a jump. -/
theorem witness_PcAfterEachInstruction :
    (demo 0).status = .running ∧ silentDemo.status = .running ∧
      after (exec (.add 1 2 3) (demo 0)) (fun t => t.status) = some .running ∧
      after (exec .halt (demo 0)) (fun t => t.status) = some .halted ∧
      (after (exec (.div 1 2 0) (demo 0)) (fun t => t.status)).isSome = true ∧
      after (exec (.inp 1) silentDemo) (fun t => (t.status, t.waitingInput)) = some (.running, true) ∧
      after (exec (.loadp 0 7) (demo 0)) (fun t => (t.status, t.pc)) = some (.running, 7) := by
  decide

theorem witness_PcNeverWraps :
    Inv (demo 0x30000053) ∧ (demo 0x30000053).fetch = some 0x30000053 ∧
      decode 0x30000053 = .instr (.add 1 2 3) ∧ Instr.op (.add 1 2 3) ≠ .loadp ∧
      after (step (demo 0x30000053)) (fun t => (t.status, t.waitingInput)) = some (.running, false) :=
  ⟨demo_inv _, by decide, by decide, by decide, by decide⟩

/-- One faulting step of each kind, for the statements about faulting steps. -/
theorem witness_FaultsArePreciseAndChangeNothing :
    after (step (demo 0xF0000000)) (fun t => (faultOf t).map (·.1)) = some (some .decodeError) ∧
      after (step (demo 0x90000000)) (fun t => (faultOf t).map (·.1)) = some (some .boundsError) ∧
      after (step (demo 0x50000050)) (fun t => (faultOf t).map (·.1)) = some (some .arithmeticError) ∧
      after (step (withRegs (demo 0xA0000001) [(1, 256)])) (fun t => (faultOf t).map (·.1)) =
        some (some .ioError) ∧
      after (exec (.map 2 1) full) (fun t => (faultOf t).map (·.1)) = some (some .resourceExhausted) := by
  decide

/-- MAP one word over the capacity and LOADP over it; a fetch at Len(0); SLOAD one past the last word,
SSTORE to an unmapped identifier, LOADP naming one. -/
theorem witness_FaultKindsHaveTheirTriggers :
    after (step { full with mem := [(0, Segment.ofWords [0x80000011, 0, 0]), (1, ⟨3, []⟩)] })
      (fun t => (faultOf t).map (·.1)) = some (some .resourceExhausted) ∧
    after (step { full with mem := [(0, Segment.ofWords [0xC0000008]), (1, ⟨5, []⟩)] })
      (fun t => (faultOf t).map (·.1)) = some (some .resourceExhausted) ∧
    after (step ((demo 0).setPc 3)) (fun t => (faultOf t).map (·.1)) = some (some .boundsError) ∧
    after (step (demo 0x1000000B)) (fun t => (faultOf t).map (·.1)) = some (some .boundsError) ∧
    after (step (demo 0x20000080)) (fun t => (faultOf t).map (·.1)) = some (some .boundsError) ∧
    after (step (demo 0xC0000010)) (fun t => (faultOf t).map (·.1)) = some (some .boundsError) := by
  decide

theorem witness_FaultChecksInOrder :
    (demo 0).reg 0 = 0 ∧ (demo 0).reg 2 ≠ 0 ∧ (demo 0).mem.mapped ((demo 0).reg 2) = false ∧
      full.params.capWords = some 6 ∧ 6 < full.mem.totalWords + (full.reg 1).toNat ∧
      (((demo 0).setFree []).setNextId (2 ^ 32)).params.capWords = none ∧
      (((demo 0).setFree []).setNextId (2 ^ 32)).free = [] ∧
      2 ^ 32 - 1 < (((demo 0).setFree []).setNextId (2 ^ 32)).nextId := by
  decide

theorem witness_OnlyHaltHalts :
    after (step (demo 0x70000000)) (fun t => t.status) = some .halted ∧
      after (step (demo 0x30000053)) (fun t => t.status) = some .running := by
  decide

/-- A step that allocates, from a state that meets the invariant. -/
theorem witness_EveryStepKeepsTheInvariant :
    Inv (demo 0x80000013) ∧ after (step (demo 0x80000013)) (fun t => t.reg 2) = some 2 :=
  ⟨demo_inv _, by decide⟩

theorem witness_HostAnswerKeepsTheInvariant : Inv (demo 0xB0000001) := demo_inv _

theorem witness_ResetSetsEveryElement :
    resetWith Config.reference [.byte 1] .never [0x70000000] =
      .ok (bootState Config.reference [.byte 1] .never [0x70000000]) := by
  decide

/-- A Faulted core ends as the absorption statement's third clause takes it. -/
theorem witness_HaltedAndFaultedAbsorb_status :
    (demo 0).halt.status = .halted ∧
      ((demo 0).faulted .divideByZero).status = .faulted ((demo 0).record .divideByZero) := ⟨rfl, rfl⟩

theorem witness_RefusedResets :
    fitsCap full.params 6 = true ∧ fitsCap full.params 7 = false ∧
      wordsOfBytes [0, 0, 0, 7] = some [7] ∧ wordsOfBytes [0, 0, 0] = none := by
  decide

theorem witness_ProgramBytesAreBigEndian : wordsOfBytes [1, 2, 3, 4] = some [0x01020304] := by decide

theorem witness_EmptyProgramFaultsAtOnce :
    resetWith full.params [] .never [] = .ok (bootState full.params [] .never []) := by decide

/-- An accepted program, one step of it, and an answer of the host. -/
theorem witness_ReachableStatesMeetTheInvariant :
    resetWith Config.reference [] .never [0x80000008] =
        .ok (bootState Config.reference [] .never [0x80000008]) ∧
      ∃ t, Runs (bootState Config.reference [] .never [0x80000008]) t ∧ t.reg 1 = 1 ∧
        t.input.answers = [.byte 7] :=
  ⟨by decide, _, .answer (.byte 7) (.step (.refl _) rfl), by decide, by decide⟩

end Sys2Proof.Machine.Tests
end

section
/-! PROOFS. What an instruction can do to the segment table, said once, and from it 20_memory.md R49:
what keeps a word and a length, and what a new word is. -/

namespace Sys2Proof.Machine

/-! ### The segment table after an instruction -/

/-- SegMap never issues an identifier that is mapped: a released one is unmapped, and the counter is
above every mapped one (20_memory.md R55, 10_state.md R31). -/
theorem ManagerInv.segMap_unmapped {s t : State} {n id : Word} (hs : ManagerInv s)
    (h : s.segMap n = .ok (id, t)) : s.mem.mapped id = false := by
  obtain ⟨-, ⟨rest, hfree, -⟩ | ⟨-, hle, hid, -⟩⟩ := State.segMap_ok h
  · exact hs.disjoint id (by simp [hfree])
  · have hnat : id.toNat = s.nextId := by rw [hid, BitVec.toNat_ofNat]; omega
    have hpos := hs.next_pos
    have hne : id ≠ 0#32 := fun e => by simp [e] at hnat; omega
    refine Bool.eq_false_iff.mpr fun hmap => ?_
    have hlt := (hs.covers id hne).mp (.inl hmap)
    omega

/-- An operation that writes one register leaves the segment table alone. -/
theorem writeAndAdvance_mem {s t : State} {i : Reg} {v : Word}
    (h : writeAndAdvance s i v = .next t) : t.mem = s.mem := by
  rw [writeAndAdvance_next.mp h, State.advance_mem, State.setReg_mem]

/-- The five things an instruction can do to the segment table: nothing, or what SSTORE, MAP, UNMAP or
a LOADP with a non-zero identifier does (20_memory.md R52, R55, R57, R58). -/
theorem exec_mem_cases {i : Instr} {s t : State} (h : exec i s = .next t) :
    t.mem = s.mem ∨
    (∃ a b c, i = .sstore a b c ∧ s.mem.segWrite (s.reg a) (s.reg b) (s.reg c) = .ok t.mem) ∨
    (∃ b c id u, i = .map b c ∧ s.segMap (s.reg c) = .ok (id, u) ∧ t.mem = u.mem) ∨
    (∃ c u, i = .unmap c ∧ s.segUnmap (s.reg c) = .ok u ∧ t.mem = u.mem) ∨
    (∃ b c u, i = .loadp b c ∧ s.reg b ≠ 0#32 ∧ s.segReplace0 (s.reg b) = .ok u ∧ t.mem = u.mem) := by
  cases i with
  | cmov a b c => obtain ⟨-, rfl⟩ | ⟨-, rfl⟩ := execCmov_next.mp h <;> exact .inl rfl
  | add a b c => exact .inl (writeAndAdvance_mem h)
  | mul a b c => exact .inl (writeAndAdvance_mem h)
  | div a b c => obtain ⟨-, rfl⟩ | ⟨-, rfl⟩ := execDiv_next.mp h <;> exact .inl rfl
  | nand a b c => exact .inl (writeAndAdvance_mem h)
  | li a imm => exact .inl (writeAndAdvance_mem h)
  | halt => cases h; exact .inl rfl
  | out c => obtain ⟨-, rfl⟩ | ⟨-, rfl⟩ := execOut_next.mp h <;> exact .inl rfl
  | inp c => obtain ⟨a, p, -, rfl⟩ | ⟨-, rfl⟩ := execIn_next.mp h <;> exact .inl rfl
  | sload a b c => obtain ⟨v, -, rfl⟩ | ⟨e, -, rfl⟩ := execSload_next.mp h <;> exact .inl rfl
  | sstore a b c =>
    obtain ⟨m, hw, rfl⟩ | ⟨e, -, rfl⟩ := execSstore_next.mp h
    · exact .inr (.inl ⟨a, b, c, rfl, hw⟩)
    · exact .inl rfl
  | map b c =>
    obtain ⟨id, u, hu, rfl⟩ | ⟨e, -, rfl⟩ := execMap_next.mp h
    · exact .inr (.inr (.inl ⟨b, c, id, u, rfl, hu, rfl⟩))
    · exact .inl rfl
  | unmap c =>
    obtain ⟨u, hu, rfl⟩ | ⟨e, -, rfl⟩ := execUnmap_next.mp h
    · exact .inr (.inr (.inr (.inl ⟨c, u, rfl, hu, rfl⟩)))
    · exact .inl rfl
  | loadp b c =>
    obtain ⟨-, rfl⟩ | ⟨hb, u, hu, rfl⟩ | ⟨-, e, -, rfl⟩ := execLoadp_next.mp h
    · exact .inl rfl
    · exact .inr (.inr (.inr (.inr ⟨b, c, u, rfl, hb, hu, rfl⟩)))
    · exact .inl rfl

/-- The same for the segment of one identifier: it is as before, or the instruction is an SSTORE into
it, the MAP that issues it, its UNMAP, or a LOADP that replaces it, which is then segment 0. -/
theorem exec_find_cases {i : Instr} {s t : State} (hs : ManagerInv s) (h : exec i s = .next t)
    (id : Word) :
    t.mem.find id = s.mem.find id ∨
    (∃ a b c g, i = .sstore a b c ∧ s.reg a = id ∧ s.mem.find id = some g ∧
      t.mem.find id = some (g.write (s.reg b).toNat (s.reg c))) ∨
    (∃ b c, i = .map b c ∧ s.mem.find id = none ∧
      t.mem.find id = some (Segment.zeros (s.reg c).toNat)) ∨
    (∃ c, i = .unmap c ∧ s.reg c = id ∧ t.mem.find id = none) ∨
    (∃ b c, i = .loadp b c ∧ s.reg b ≠ 0#32 ∧ id = 0#32) := by
  obtain hm | ⟨a, b, c, rfl, hw⟩ | ⟨b, c, k, u, rfl, hu, hm⟩ | ⟨c, u, rfl, hu, hm⟩ |
    ⟨b, c, u, rfl, hb, hu, hm⟩ := exec_mem_cases h
  · exact .inl (by rw [hm])
  · obtain ⟨g, hg, -, hm⟩ := Memory.segWrite_ok.mp hw
    rw [hm, Memory.find_put]
    by_cases hid : id = s.reg a
    · exact .inr (.inl ⟨a, b, c, g, rfl, hid.symm, hid ▸ hg, if_pos hid⟩)
    · exact .inl (if_neg hid)
  · rw [hm, (State.segMap_ok_issued hu).2, Memory.find_put]
    by_cases hid : id = k
    · have hnew := Memory.mapped_eq_false.mp (hs.segMap_unmapped hu)
      exact .inr (.inr (.inl ⟨b, c, rfl, hid ▸ hnew, if_pos hid⟩))
    · exact .inl (if_neg hid)
  · obtain ⟨-, -, rfl⟩ := State.segUnmap_ok.mp hu
    rw [hm, State.setFree_mem, State.setMem_mem, Memory.find_remove]
    by_cases hid : id = s.reg c
    · exact .inr (.inr (.inr (.inl ⟨c, rfl, hid.symm, if_pos hid⟩)))
    · exact .inl (if_neg hid)
  · obtain ⟨g, -, -, rfl⟩ := State.segReplace0_ok.mp hu
    rw [hm, State.setMem_mem, Memory.find_put]
    by_cases hid : id = 0#32
    · exact .inr (.inr (.inr (.inr ⟨b, c, rfl, hb, hid⟩)))
    · exact .inl (if_neg hid)

/-! ### R49: words, lengths and new words -/

/-- A readable word reads the same after an instruction, but for the three that 20_memory.md R49
names. -/
theorem exec_keeps_word {i : Instr} {s t : State} {id off v : Word} (hs : ManagerInv s)
    (h : exec i s = .next t) (hv : s.mem.wordAt id off = some v) :
    t.mem.wordAt id off = some v ∨
    (∃ a b c, i = .sstore a b c ∧ s.reg a = id ∧ s.reg b = off) ∨
    (∃ c, i = .unmap c ∧ s.reg c = id) ∨
    (∃ b c, i = .loadp b c ∧ s.reg b ≠ 0#32 ∧ id = 0#32) := by
  obtain hf | ⟨a, b, c, g, hi, ha, hg, hf⟩ | ⟨b, c, -, hg, -⟩ | ⟨c, hi, hc, -⟩ | hl :=
    exec_find_cases hs h id
  · exact .inl (by rw [Memory.wordAt_congr hf, hv])
  · by_cases hoff : s.reg b = off
    · exact .inr (.inl ⟨a, b, c, hi, ha, hoff⟩)
    · obtain ⟨g', hg', hlt, hread⟩ := Memory.wordAt_eq_some.mp hv
      obtain rfl : g' = g := by simpa [hg] using hg'.symm
      have hne : off.toNat ≠ (s.reg b).toNat := fun e => hoff (BitVec.eq_of_toNat_eq e.symm)
      refine .inl (Memory.wordAt_eq_some.mpr ⟨_, hf, ?_, ?_⟩)
      · rwa [Segment.write_len]
      · rw [hread, Segment.write_read_ne _ _ _ _ hne]
  · obtain ⟨g, hg', -⟩ := Memory.wordAt_eq_some.mp hv
    simp [hg] at hg'
  · exact .inr (.inr (.inl ⟨c, hi, hc⟩))
  · exact .inr (.inr (.inr hl))

/-- An identifier that stays mapped keeps its length, unless it is 0 and a LOADP replaces segment 0
(20_memory.md R49). -/
theorem exec_keeps_len {i : Instr} {s t : State} {id : Word} (hs : ManagerInv s)
    (h : exec i s = .next t) (hbefore : s.mem.mapped id = true) (hafter : t.mem.mapped id = true) :
    t.mem.len id = s.mem.len id ∨ (∃ b c, i = .loadp b c ∧ s.reg b ≠ 0#32 ∧ id = 0#32) := by
  obtain hf | ⟨a, b, c, g, -, -, hg, hf⟩ | ⟨b, c, -, hg, -⟩ | ⟨c, -, -, hf⟩ | hl :=
    exec_find_cases hs h id
  · exact .inl (Memory.len_congr hf)
  · exact .inl (by simp [Memory.len, hf, hg])
  · simp [Memory.mapped_eq_false.mpr hg] at hbefore
  · simp [Memory.mapped_eq_false.mpr hf] at hafter
  · exact .inr hl

/-- Every word of an identifier that an instruction maps is 0 (20_memory.md R49, R55). -/
theorem exec_new_word_zero {i : Instr} {s t : State} {id off : Word} (hs : ManagerInv s)
    (h : exec i s = .next t) (hbefore : s.mem.mapped id = false) (hafter : t.mem.mapped id = true)
    (hoff : off.toNat < t.mem.len id) : t.mem.wordAt id off = some 0#32 := by
  have hnone := Memory.mapped_eq_false.mp hbefore
  obtain hf | ⟨a, b, c, g, -, -, hg, -⟩ | ⟨b, c, -, -, hf⟩ | ⟨c, -, -, hf⟩ | ⟨b, c, -, -, rfl⟩ :=
    exec_find_cases hs h id
  · simp [Memory.mapped_eq_false.mpr (hf.trans hnone)] at hafter
  · simp [hnone] at hg
  · have hlt : off.toNat < (s.reg c).toNat := by simpa [Memory.len, hf] using hoff
    exact Memory.wordAt_eq_some.mpr ⟨_, hf, hlt, rfl⟩
  · simp [Memory.mapped_eq_false.mpr hf] at hafter
  · simp [hs.zero_mapped] at hbefore

/-- Settles O29: each of its three parts, from what an instruction can do to one segment. -/
theorem wordsAndLengthsPersist : Obligations.WordsAndLengthsPersist := by
  intro i s t hinv h
  have hs := hinv.manager
  exact ⟨fun _ _ _ => exec_keeps_word hs h, fun _ => exec_keeps_len hs h,
    fun _ hbefore hafter _ => exec_new_word_zero hs h hbefore hafter⟩

end Sys2Proof.Machine
end

section
/-! The fields of a word (30_encoding.md R71). -/

namespace Sys2Proof.Laws

/-- 30_encoding.md R71: a right shift by lsb, then the low width bits. -/
@[simp] theorem extract_toNat (w : Word) (width lsb : Nat) :
    (extract w width lsb).toNat = w.toNat / 2 ^ lsb % 2 ^ width := by
  rw [extract, BitVec.extractLsb'_toNat, Nat.shiftRight_eq_div_pow]

/-- The 3-bit register field at an offset, as a number (30_encoding.md R71, R75). -/
@[simp] theorem regField_val (w : Word) (lsb : Nat) : (regField w lsb).val = w.toNat / 2 ^ lsb % 8 :=
  extract_toNat w 3 lsb

/-- The field at offset 0 is the word's remainder (30_encoding.md R71, R72). -/
theorem fieldC_val (w : Word) : (fieldC w).val = w.toNat % 8 := by
  rw [fieldC, regField_val, pow_zero, Nat.div_one]

/-- The immediate is the word's low 25 bits (30_encoding.md R71, R73). -/
theorem fieldImm_toNat (w : Word) : (fieldImm w).toNat = w.toNat % 2 ^ 25 := by
  rw [fieldImm, extract_toNat, pow_zero, Nat.div_one]

/-- Settles O4: every field of R71's table is extract, or a register field, at its own offset. -/
theorem extractReadsTheNumberedBits : Obligations.ExtractReadsTheNumberedBits := fun w =>
  ⟨extract_toNat w, fieldOp_toNat w, regField_val w 6, regField_val w 3, fieldC_val w,
    regField_val w 25, fieldImm_toNat w⟩

end Sys2Proof.Laws
end

section
/-! PROOFS. The register and arithmetic operations (40_register_ops.md): each either writes one register
and advances or, for a CMOV that does not copy, only advances; both are the write of one register that
Safety.lean's WritesReg describes. -/

namespace Sys2Proof.Machine

/-! ### One register written -/

/-- The state after writing one register and advancing, the destination a source or not
(10_state.md R25, 30_encoding.md R81). -/
theorem WritesReg.setReg_advance (s : State) (a : Reg) (v : Word) :
    WritesReg s (s.setReg a v).advance a v where
  value := State.setReg_reg_same s a v
  others r hr := State.setReg_reg_ne s a r v (List.ne_of_not_mem_cons hr)
  pc := rfl
  manager := ⟨rfl, rfl, rfl⟩
  ports := ⟨rfl, rfl, rfl, rfl, rfl⟩

/-- Advancing alone is a write of any register's own value (10_state.md R25). -/
theorem WritesReg.advance (s : State) (a : Reg) : WritesReg s s.advance a (s.reg a) where
  value := rfl
  others _ _ := rfl
  pc := rfl
  manager := ⟨rfl, rfl, rfl⟩
  ports := ⟨rfl, rfl, rfl, rfl, rfl⟩

/-- An operation that writes one register answers a next state, with nothing else changed. -/
theorem writeAndAdvance_writesReg (s : State) (a : Reg) (v : Word) :
    ∃ t, writeAndAdvance s a v = .next t ∧ WritesReg s t a v :=
  ⟨_, writeAndAdvance_next.mpr rfl, .setReg_advance s a v⟩

/-! ### The meanings, by instruction -/

theorem exec_cmov (a b c : Reg) (s : State) : exec (.cmov a b c) s = execCmov a b c s := rfl

theorem exec_add (a b c : Reg) (s : State) :
    exec (.add a b c) s = writeAndAdvance s a (s.reg b + s.reg c) := rfl

theorem exec_mul (a b c : Reg) (s : State) :
    exec (.mul a b c) s = writeAndAdvance s a (s.reg b * s.reg c) := rfl

theorem exec_nand (a b c : Reg) (s : State) :
    exec (.nand a b c) s = writeAndAdvance s a (~~~(s.reg b &&& s.reg c)) := rfl

theorem exec_li (a : Reg) (imm : Imm) (s : State) :
    exec (.li a imm) s = writeAndAdvance s a (immValue imm) := rfl

/-! ### The values written -/

/-- Each of the 32 bits of a NAND (40_register_ops.md R104). -/
theorem getLsbD_nand (x y : Word) {k : Nat} (hk : k < 32) :
    (~~~(x &&& y)).getLsbD k = !(x.getLsbD k && y.getLsbD k) := by
  rw [BitVec.getLsbD_not, BitVec.getLsbD_and, decide_eq_true hk, Bool.true_and]

/-- The immediate is zero-extended: its unsigned value is kept (40_register_ops.md R105). -/
@[simp] theorem immValue_toNat (imm : Imm) : (immValue imm).toNat = imm.toNat :=
  BitVec.toNat_setWidth_of_le (by decide)

/-! ### The obligations -/

/-- Settles O12: a CMOV with condition 0 only advances, any other writes x[a]. -/
theorem cmovCopiesOnNonzeroCondition : Obligations.CmovCopiesOnNonzeroCondition := by
  intro a b c s
  rw [exec_cmov]
  by_cases hc : s.reg c = 0#32
  · rw [if_pos hc]
    exact ⟨_, execCmov_next.mpr (.inl ⟨hc, rfl⟩), .advance s a⟩
  · rw [if_neg hc]
    exact ⟨_, execCmov_next.mpr (.inr ⟨hc, rfl⟩), .setReg_advance s a _⟩

/-- Settles O13: word addition is addition modulo 2^32. -/
theorem addIsModulo : Obligations.AddIsModulo := by
  intro a b c s
  obtain ⟨t, ht, hw⟩ := writeAndAdvance_writesReg s a (s.reg b + s.reg c)
  exact ⟨t, _, (exec_add a b c s).trans ht, hw, BitVec.toNat_add _ _⟩

/-- Settles O14: word multiplication is multiplication modulo 2^32. -/
theorem mulIsModulo : Obligations.MulIsModulo := by
  intro a b c s
  obtain ⟨t, ht, hw⟩ := writeAndAdvance_writesReg s a (s.reg b * s.reg c)
  exact ⟨t, _, (exec_mul a b c s).trans ht, hw, BitVec.toNat_mul _ _⟩

/-- Settles O16: bit by bit, over the 32 bits of the word written. -/
theorem nandIsBitwise : Obligations.NandIsBitwise := by
  intro a b c s
  obtain ⟨t, ht, hw⟩ := writeAndAdvance_writesReg s a (~~~(s.reg b &&& s.reg c))
  exact ⟨t, _, (exec_nand a b c s).trans ht, hw, fun _ hk => getLsbD_nand _ _ hk⟩

/-- Settles O17: the word written is the immediate, zero-extended. -/
theorem liZeroExtends : Obligations.LiZeroExtends := by
  intro a imm s
  obtain ⟨t, ht, hw⟩ := writeAndAdvance_writesReg s a (immValue imm)
  exact ⟨t, _, (exec_li a imm s).trans ht, hw, immValue_toNat imm⟩

end Sys2Proof.Machine
end

section
/-! PROOFS. SLOAD, SSTORE and UNMAP (41_segment_ops.md): where the segment operation each of them runs
answers, and where it fails and so faults the instruction. -/

namespace Sys2Proof.Machine

/-! ### The meanings, by instruction -/

theorem exec_sload (a b c : Reg) (s : State) : exec (.sload a b c) s = execSload a b c s := rfl

theorem exec_sstore (a b c : Reg) (s : State) : exec (.sstore a b c) s = execSstore a b c s := rfl

theorem exec_unmap (c : Reg) (s : State) : exec (.unmap c) s = execUnmap c s := rfl

/-! ### Faulting -/

/-- An instruction that leaves the state a fault leaves ends the run with that fault's kind
(60_exceptions.md R161, R162). -/
theorem Faults.of_faulted {i : Instr} {s : State} {e : FaultCause} {k : FaultKind}
    (h : exec i s = .next (s.faulted e)) (hk : e.kind = k) : Faults i s k :=
  ⟨s.faulted e, s.record e, h, rfl, hk⟩

/-- Where there is no cell the translation fails, and for an instruction that is a bounds fault
(20_memory.md R50, 60_exceptions.md R161). -/
theorem Memory.translate_boundsError {m : Memory} {id off : Word}
    (h : m.mapped id = false ∨ m.len id ≤ off.toNat) :
    ∃ e, m.translate id off = .error e ∧ e.kind = .boundsError := by
  cases hf : m.find id with
  | none => exact ⟨.unmappedId, Memory.translate_error.mpr (.inl ⟨hf, rfl⟩), rfl⟩
  | some g =>
    have hlen : g.len ≤ off.toNat := by simpa [Memory.mapped, Memory.len, hf] using h
    exact ⟨.offsetOutOfRange, Memory.translate_error.mpr (.inr ⟨g, hf, hlen, rfl⟩), rfl⟩

/-- Both failures of SegUnmap are bounds faults (20_memory.md R57, 60_exceptions.md R161). -/
theorem State.segUnmap_boundsError {s : State} {id : Word}
    (h : id = 0#32 ∨ s.mem.mapped id = false) :
    ∃ e, s.segUnmap id = .error e ∧ e.kind = .boundsError := by
  by_cases h0 : id = 0#32
  · exact ⟨.unmapSegment0, State.segUnmap_error.mpr (.inl ⟨h0, rfl⟩), rfl⟩
  · exact ⟨.unmappedId, State.segUnmap_error.mpr (.inr ⟨h0, h.resolve_left h0, rfl⟩), rfl⟩

/-! ### The segment written, and the one removed -/

/-- A write to a mapped identifier below its length is made (20_memory.md R52). -/
theorem Memory.segWrite_exists {m : Memory} {id off : Word} (v : Word) (hmap : m.mapped id = true)
    (hoff : off.toNat < m.len id) : ∃ m', m.segWrite id off v = .ok m' := by
  obtain ⟨g, hg, hlen⟩ := Memory.mapped_iff.mp hmap
  exact ⟨_, Memory.segWrite_ok.mpr ⟨g, hg, hlen ▸ hoff, rfl⟩⟩

/-- The written word reads back, the word an unlisted cell stands for included (20_memory.md R52). -/
theorem Memory.segWrite_same {m m' : Memory} {id off v : Word} (h : m.segWrite id off v = .ok m') :
    m'.wordAt id off = some v := by
  obtain ⟨g, -, hoff, rfl⟩ := Memory.segWrite_ok.mp h
  have hfind : (m.put id (g.write off.toNat v)).find id = some (g.write off.toNat v) := by
    rw [Memory.find_put, if_pos rfl]
  refine Memory.wordAt_eq_some.mpr ⟨_, hfind, ?_, ?_⟩
  · rwa [Segment.write_len]
  · rw [Segment.write_read_same]

/-- A removed segment is unmapped, with no word to read (20_memory.md R57). -/
theorem Memory.remove_same (m : Memory) (id : Word) :
    (m.remove id).mapped id = false ∧ ∀ off : Word, (m.remove id).wordAt id off = none := by
  have hfind : (m.remove id).find id = none := by rw [Memory.find_remove, if_pos rfl]
  refine ⟨Memory.mapped_eq_false.mpr hfind, fun off => Memory.wordAt_eq_none.mpr ?_⟩
  simp [Memory.len, hfind]

/-! ### The obligations -/

/-- Settles O19: SLOAD completes with the word SegRead answers, and fails as the translation does. -/
theorem sloadReadsTheCell : Obligations.SloadReadsTheCell := by
  intro a b c s
  refine ⟨fun v hv => ?_, fun hno => ?_⟩
  · have hread := Memory.segRead_ok.mpr (Memory.wordAt_eq_some.mp hv)
    exact ⟨_, (exec_sload a b c s).trans (execSload_next.mpr (.inl ⟨v, hread, rfl⟩)),
      .setReg_advance s a v⟩
  · obtain ⟨e, he, hk⟩ := Memory.translate_boundsError hno
    have hread := Memory.segRead_error.mpr he
    exact .of_faulted ((exec_sload a b c s).trans (execSload_next.mpr (.inr ⟨e, hread, rfl⟩))) hk

/-- Settles O21: SSTORE replaces the segment table by SegWrite's and advances, and fails as the
translation does. -/
theorem sstoreWritesOneCell : Obligations.SstoreWritesOneCell := by
  intro a b c s
  refine ⟨fun hmap hoff => ?_, fun hno => ?_⟩
  · obtain ⟨m, hm⟩ := Memory.segWrite_exists (s.reg c) hmap hoff
    obtain ⟨hwords, hsegs⟩ := Memory.segWrite_others hm
    exact ⟨_, (exec_sstore a b c s).trans (execSstore_next.mpr (.inl ⟨m, hm, rfl⟩)),
      Memory.segWrite_same hm, hwords, hsegs, fun _ _ => rfl, rfl, rfl, rfl,
      ⟨rfl, rfl, rfl, rfl, rfl⟩⟩
  · obtain ⟨e, he, hk⟩ := Memory.translate_boundsError hno
    have hwrite := (Memory.segWrite_error (v := s.reg c)).mpr he
    exact .of_faulted ((exec_sstore a b c s).trans (execSstore_next.mpr (.inr ⟨e, hwrite, rfl⟩))) hk

/-- Settles O25: UNMAP removes the segment, pushes its identifier and advances, and fails as SegUnmap
does. -/
theorem unmapReleases : Obligations.UnmapReleases := by
  intro c s
  refine ⟨fun h0 hmap => ?_, fun hno => ?_⟩
  · have hunmap := State.segUnmap_ok.mpr ⟨h0, hmap, rfl⟩
    obtain ⟨hgone, hnoword⟩ := Memory.remove_same s.mem (s.reg c)
    exact ⟨_, (exec_unmap c s).trans (execUnmap_next.mpr (.inl ⟨_, hunmap, rfl⟩)), hgone, hnoword,
      rfl, fun _ hj => Memory.remove_others hj, fun _ _ => rfl, rfl, rfl, ⟨rfl, rfl, rfl, rfl, rfl⟩⟩
  · obtain ⟨e, he, hk⟩ := State.segUnmap_boundsError hno
    exact .of_faulted ((exec_unmap c s).trans (execUnmap_next.mpr (.inr ⟨e, he, rfl⟩))) hk

end Sys2Proof.Machine
end

section
/-! PROOFS. Invalid opcodes (44_halt_invalid.md R151): where the decoder answers invalid, what the step
then answers, and that a fault changes the status alone. -/

namespace Sys2Proof.Machine

/-- An opcode past the last operation is invalid under every OPCODE_MAP (30_encoding.md R77, R78). -/
theorem decodeWith_eq_invalid (m : OpcodeMap) {w : Word} (h : 14 ≤ (fieldOp w).toNat) :
    decodeWith m w = .invalid (fieldOp w) :=
  dif_neg (Nat.not_lt.mpr h)

/-- A Running core has a step when no request is outstanding or the host has an answer for it
(10_state.md R33, 30_encoding.md R79). -/
theorem State.noStep?_eq_none_of_running {s : State} (hrun : s.status = .running)
    (hwait : s.waitingInput = false ∨ s.input.silent = false) : s.noStep? = none := by
  refine State.noStep?_eq_none.mpr ⟨hrun, fun hw => ?_⟩
  obtain hnot | hanswer := hwait
  · simp [hnot] at hw
  · exact hanswer

/-- The step at a word that decodes as invalid takes the decode fault (30_encoding.md R79). -/
theorem stepWith_of_invalid {m : OpcodeMap} {s : State} {w : Word} {op : BitVec 4}
    (hstep : s.noStep? = none) (hfetch : s.fetch = some w) (hdec : decodeWith m w = .invalid op) :
    stepWith m s = .next (s.faulted (.opcode op)) := by
  simp only [stepWith, hstep, hfetch, hdec, raise]

/-- Whatever its cause, a fault changes the status alone (60_exceptions.md R162). -/
theorem OnlyStatusChanged.faulted (s : State) (c : FaultCause) : OnlyStatusChanged s (s.faulted c) :=
  ⟨fun _ => rfl, rfl, ⟨rfl, rfl, rfl⟩, rfl, rfl, rfl, rfl⟩

/-- Settles O9: opcodes 14 and 15 decode as invalid, and the step there takes the decode fault, which
changes the status alone. -/
theorem invalidOpcodeFaults : Obligations.InvalidOpcodeFaults := by
  intro s w hrun hwait hword hop
  have hpast : 14 ≤ (fieldOp w).toNat := by
    obtain h14 | h15 := hop
    · simp [h14]
    · simp [h15]
  have hstep : step s = .next (s.faulted (.opcode (fieldOp w))) :=
    stepWith_of_invalid (State.noStep?_eq_none_of_running hrun hwait) hword
      (decodeWith_eq_invalid opcodeMap hpast)
  exact ⟨_, _, hstep, State.faulted_status s _, rfl, .faulted s _⟩

end Sys2Proof.Machine
end

section
/-! PROOFS. Reset (70_reset_and_hazards.md R180): when the program-load port starts the core and with
which state, and what that state's registers and segment table hold for every program. -/

namespace Sys2Proof.Machine

/-! ### An accepted reset -/

/-- A reset starts the core exactly within both limits of 70_reset_and_hazards.md R181, and then with
the state of R180. -/
theorem resetWith_ok {p : Params} {answers : List InputAnswer} {tail : InputTail} {prog : List Word}
    {s : State} :
    resetWith p answers tail prog = .ok s ↔
      prog.length ≤ Config.programMaxWords ∧ fitsCap p prog.length = true ∧
        s = bootState p answers tail prog := by
  unfold resetWith
  by_cases hmax : Config.programMaxWords < prog.length
  · simp [hmax]
  · by_cases hcap : fitsCap p prog.length = true
    · simp [hmax, hcap, Nat.le_of_not_lt hmax, eq_comm]
    · simp [hmax, hcap]

/-! ### The words of one segment -/

/-- The words a program can read of a mapped segment are those below its length (20_memory.md R50,
R51). -/
theorem Memory.wordAt_of_find {m : Memory} {id : Word} {g : Segment} (h : m.find id = some g)
    (off : Word) :
    m.wordAt id off = if off.toNat < g.len then some (g.read off.toNat) else none := by
  by_cases hoff : off.toNat < g.len
  · rw [if_pos hoff]
    exact Memory.wordAt_eq_some.mpr ⟨g, h, hoff, rfl⟩
  · rw [if_neg hoff, Memory.wordAt_eq_none]
    simpa [Memory.len, h] using hoff

/-- A segment that holds a sequence reads as the sequence, with no word past its end (10_state.md R27,
R40). -/
theorem Memory.wordAt_of_find_ofWords {m : Memory} {id : Word} {ws : List Word}
    (h : m.find id = some (Segment.ofWords ws)) (off : Word) :
    m.wordAt id off = ws[off.toNat]? := by
  rw [Memory.wordAt_of_find h, Segment.ofWords_len, Segment.ofWords_read]
  split
  · next hoff => rw [List.getD_eq_getElem _ _ hoff, List.getElem?_eq_getElem hoff]
  · next hoff => exact (List.getElem?_eq_none (Nat.le_of_not_lt hoff)).symm

/-! ### The state after reset -/

section
variable (p : Params) (answers : List InputAnswer) (tail : InputTail) (prog : List Word)

/-- Every register holds 0 after a reset with any program (70_reset_and_hazards.md R180). -/
@[simp] theorem bootState_reg (r : Reg) : (bootState p answers tail prog).reg r = 0#32 := by
  simp [bootState, State.reg]

/-- The segment table after reset is the empty one with the program put at identifier 0
(70_reset_and_hazards.md R180). -/
theorem bootState_mem :
    (bootState p answers tail prog).mem = Memory.put [] 0#32 (Segment.ofWords prog) := rfl

/-- Identifier 0 has the program's segment, and no other identifier has one (70_reset_and_hazards.md
R180). -/
theorem bootState_find (id : Word) :
    (bootState p answers tail prog).mem.find id =
      if id = 0#32 then some (Segment.ofWords prog) else none := by
  rw [bootState_mem, Memory.find_put]
  rfl

/-- Exactly identifier 0 is mapped after reset (70_reset_and_hazards.md R180). -/
theorem bootState_mapped (id : Word) :
    (bootState p answers tail prog).mem.mapped id = true ↔ id = 0#32 := by
  rw [Memory.mapped, bootState_find]
  by_cases hid : id = 0#32 <;> simp [hid]

/-- Segment 0 has the program's length after reset (70_reset_and_hazards.md R180). -/
theorem bootState_len : (bootState p answers tail prog).mem.len 0#32 = prog.length := by
  simp [Memory.len, bootState_find]

/-- Segment 0 reads as the program after reset, with no word past its end (70_reset_and_hazards.md
R180). -/
theorem bootState_wordAt (off : Word) :
    (bootState p answers tail prog).mem.wordAt 0#32 off = prog[off.toNat]? :=
  Memory.wordAt_of_find_ofWords ((bootState_find p answers tail prog 0#32).trans (if_pos rfl)) off

end

/-- Settles O54: an accepted reset is the state of R180, read element by element. -/
theorem resetSetsEveryElement : Obligations.ResetSetsEveryElement := by
  intro p answers tail prog s h
  obtain ⟨-, -, rfl⟩ := resetWith_ok.mp h
  exact ⟨bootState_reg p answers tail prog, rfl, bootState_mapped p answers tail prog,
    bootState_len p answers tail prog, bootState_wordAt p answers tail prog, rfl, rfl, rfl, rfl, rfl⟩

end Sys2Proof.Machine
end

section
/-! PROOFS. The codec (30_encoding.md R71 to R78, R84): the fields of an encoded word, what decides the
decoder's answer, and from them the round trip, the illegal words and the ignored bits. -/

namespace Sys2Proof.Laws

/-! ### The fields of an encoded word -/

/-- The number an RRR word is built from is below 2^32 (30_encoding.md R84). -/
theorem encodeRRR_toNat (op : Fin 14) (a b c : Reg) :
    (encodeRRR op a b c).toNat = op.val * 2 ^ 28 + a.val * 2 ^ 6 + b.val * 2 ^ 3 + c.val := by
  rw [encodeRRR, BitVec.toNat_ofNat]
  omega

/-- The number an LI word is built from is below 2^32 (30_encoding.md R84). -/
theorem encodeLI_toNat (op : Fin 14) (a : Reg) (imm : Imm) :
    (encodeLI op a imm).toNat = op.val * 2 ^ 28 + a.val * 2 ^ 25 + imm.toNat := by
  rw [encodeLI, BitVec.toNat_ofNat]
  have himm := imm.isLt
  omega

@[simp] theorem fieldA_encodeRRR (op : Fin 14) (a b c : Reg) : fieldA (encodeRRR op a b c) = a := by
  apply Fin.ext
  rw [fieldA, regField_val, encodeRRR_toNat]
  omega

@[simp] theorem fieldB_encodeRRR (op : Fin 14) (a b c : Reg) : fieldB (encodeRRR op a b c) = b := by
  apply Fin.ext
  rw [fieldB, regField_val, encodeRRR_toNat]
  omega

@[simp] theorem fieldC_encodeRRR (op : Fin 14) (a b c : Reg) : fieldC (encodeRRR op a b c) = c := by
  apply Fin.ext
  rw [fieldC_val, encodeRRR_toNat]
  omega

@[simp] theorem fieldDest_encodeLI (op : Fin 14) (a : Reg) (imm : Imm) :
    fieldDest (encodeLI op a imm) = a := by
  apply Fin.ext
  rw [fieldDest, regField_val, encodeLI_toNat]
  have himm := imm.isLt
  omega

@[simp] theorem fieldImm_encodeLI (op : Fin 14) (a : Reg) (imm : Imm) :
    fieldImm (encodeLI op a imm) = imm := by
  apply BitVec.eq_of_toNat_eq
  rw [fieldImm_toNat, encodeLI_toNat]
  have himm := imm.isLt
  omega

/-- An instruction's word has the opcode of its operation, under every numbering. -/
theorem fieldOp_encodeWith (num : Op → Fin 14) (i : Instr) :
    (fieldOp (encodeWith num i)).toNat = (num i.op).val := by
  cases i with
  | li a imm => exact fieldOp_encodeLI _ _ _
  | _ => exact fieldOp_encodeRRR _ _ _ _

/-- Reading the used fields of an instruction's word gives the instruction back (30_encoding.md R76,
R84). -/
theorem instrOf_encodeWith (num : Op → Fin 14) (i : Instr) :
    instrOf i.op (encodeWith num i) = i := by
  cases i <;> simp [Instr.op, encodeWith, instrOf]

/-! ### What the decoder answers -/

/-- A word whose opcode selects an operation is that operation's instruction (30_encoding.md R78). -/
theorem decodeWith_of_fieldOp (m : OpcodeMap) {w : Word} {n : Fin 14}
    (h : (fieldOp w).toNat = n.val) : decodeWith m w = .instr (instrOf (m n) w) := by
  have hlt : (fieldOp w).toNat < 14 := h ▸ n.isLt
  have hn : (⟨(fieldOp w).toNat, hlt⟩ : Fin 14) = n := Fin.ext h
  rw [decodeWith, dif_pos hlt, hn]

/-- The decoder answers invalid exactly past the last operation (30_encoding.md R77, R78). -/
theorem decodeWith_invalid_iff (m : OpcodeMap) (w : Word) :
    (∃ op, decodeWith m w = .invalid op) ↔ 14 ≤ (fieldOp w).toNat := by
  unfold decodeWith
  split <;> simp <;> omega

/-- The two directions of the table of 30_encoding.md R74 agree. -/
theorem opcodeMap_opcodeOf (k : Op) : opcodeMap (opcodeOf k) = k := by
  cases k <;> rfl

/-- Settles O1: the opcode field selects the instruction's own operation, and its fields read back. -/
theorem decodeReadsBackEncode : Obligations.DecodeReadsBackEncode := by
  have hall : ∀ (m : OpcodeMap) (num : Op → Fin 14), (∀ k : Op, m (num k) = k) →
      ∀ i : Instr, decodeWith m (encodeWith num i) = .instr i := fun m num hnum i => by
    rw [decodeWith_of_fieldOp m (fieldOp_encodeWith num i), hnum, instrOf_encodeWith]
  exact ⟨hall, hall opcodeMap opcodeOf opcodeMap_opcodeOf⟩

/-! ### Illegal words -/

/-- The opcodes past the last operation are 14 and 15 (30_encoding.md R77). -/
theorem le_opcode_iff (op : BitVec 4) : 14 ≤ op.toNat ↔ (op = 14#4 ∨ op = 15#4) := by
  simp only [BitVec.toNat_eq, BitVec.toNat_ofNat]
  omega

/-- The illegal words are those from 14 * 2^28 on (30_encoding.md R77). -/
theorem filter_invalid_eq_Ico :
    (Finset.range (2 ^ 32)).filter (fun n => ∃ op, decode (BitVec.ofNat 32 n) = .invalid op) =
      Finset.Ico (14 * 2 ^ 28) (2 ^ 32) := by
  ext n
  rw [Finset.mem_filter, Finset.mem_range, Finset.mem_Ico, decode, decodeWith_invalid_iff,
    fieldOp_toNat, BitVec.toNat_ofNat]
  omega

/-- Settles O2: the opcode field alone decides, and the words with opcode 14 or 15 are the last 2^29. -/
theorem illegalWordsAreOpcodes14And15 : Obligations.IllegalWordsAreOpcodes14And15 := by
  refine ⟨fun m w => (decodeWith_invalid_iff m w).trans (le_opcode_iff _), ?_⟩
  rw [filter_invalid_eq_Ico, Nat.card_Ico]
  norm_num

/-! ### The bits an operation uses -/

/-- Under a mask of the low n bits two words agree exactly when they have the same remainder mod 2^n. -/
theorem and_mask_eq_iff (w w' : Word) {mask : Word} {n : Nat} (hmask : mask.toNat = 2 ^ n - 1) :
    w &&& mask = w' &&& mask ↔ w.toNat % 2 ^ n = w'.toNat % 2 ^ n := by
  simp only [BitVec.toNat_eq, BitVec.toNat_and, hmask, Nat.and_two_pow_sub_one_eq_mod]

/-- Fields A, B and C are bits 8:0 (30_encoding.md R72). -/
theorem fieldsABC_eq_iff (w w' : Word) :
    (fieldA w = fieldA w' ∧ fieldB w = fieldB w' ∧ fieldC w = fieldC w') ↔
      w &&& 0x000001FF#32 = w' &&& 0x000001FF#32 := by
  rw [and_mask_eq_iff w w' (n := 9) rfl]
  simp only [Fin.ext_iff, fieldA, fieldB, regField_val, fieldC_val]
  omega

/-- Fields B and C are bits 5:0 (30_encoding.md R72). -/
theorem fieldsBC_eq_iff (w w' : Word) :
    (fieldB w = fieldB w' ∧ fieldC w = fieldC w') ↔ w &&& 0x0000003F#32 = w' &&& 0x0000003F#32 := by
  rw [and_mask_eq_iff w w' (n := 6) rfl]
  simp only [Fin.ext_iff, fieldB, regField_val, fieldC_val]
  omega

/-- Field C is bits 2:0 (30_encoding.md R72). -/
theorem fieldC_eq_iff (w w' : Word) :
    fieldC w = fieldC w' ↔ w &&& 0x00000007#32 = w' &&& 0x00000007#32 := by
  rw [and_mask_eq_iff w w' (n := 3) rfl, Fin.ext_iff, fieldC_val, fieldC_val]
  omega

/-- The two fields of a load immediate are bits 27:0 (30_encoding.md R73). -/
theorem fieldsLI_eq_iff (w w' : Word) :
    (fieldDest w = fieldDest w' ∧ fieldImm w = fieldImm w') ↔
      w &&& 0x0FFFFFFF#32 = w' &&& 0x0FFFFFFF#32 := by
  rw [and_mask_eq_iff w w' (n := 28) rfl]
  simp only [Fin.ext_iff, BitVec.toNat_eq, fieldDest, regField_val, fieldImm_toNat]
  omega

/-- An operation reads its instruction from the bits it uses, and from all of them (30_encoding.md
R76). -/
theorem instrOf_eq_iff (k : Op) (w w' : Word) :
    instrOf k w = instrOf k w' ↔ w &&& usedBits k = w' &&& usedBits k := by
  cases k with
  | halt => simp [instrOf, usedBits]
  | map => simpa [instrOf, usedBits] using fieldsBC_eq_iff w w'
  | loadp => simpa [instrOf, usedBits] using fieldsBC_eq_iff w w'
  | unmap => simpa [instrOf, usedBits] using fieldC_eq_iff w w'
  | out => simpa [instrOf, usedBits] using fieldC_eq_iff w w'
  | inp => simpa [instrOf, usedBits] using fieldC_eq_iff w w'
  | li => simpa [instrOf, usedBits] using fieldsLI_eq_iff w w'
  | _ => simpa [instrOf, usedBits] using fieldsABC_eq_iff w w'

/-- Settles O3: both words are instructions of the one operation, read from the bits it uses. -/
theorem onlyUsedBitsDecide : Obligations.OnlyUsedBitsDecide := by
  intro k w w' hw hw'
  rw [decode, decode, decodeWith_of_fieldOp _ hw, decodeWith_of_fieldOp _ hw', opcodeMap_opcodeOf,
    Decoded.instr.injEq, instrOf_eq_iff]

/-- Settles O5: ten closed words, each decoded. -/
theorem exampleWordsDecode : Obligations.ExampleWordsDecode := by
  refine ⟨?_, ?_, ?_, ?_, ?_, ?_, ?_, ?_, ?_, ?_⟩ <;> decide

end Sys2Proof.Laws
end

section
/-! PROOFS. The written instructions (30_encoding.md R84): each operand check said once, and that the
check of a written instruction accepts the operand table's forms and nothing else. -/

namespace Sys2Proof.Laws

/-! ### The operand checks -/

/-- A register number is accepted exactly when it is a register's (30_encoding.md R84). -/
@[simp] theorem asmReg_ok {n : Nat} {r : Reg} : asmReg n = .ok r ↔ n = r.val := by
  unfold asmReg
  split
  · simp [Fin.ext_iff]
  · simp
    omega

/-- An immediate is accepted exactly when it is a 25-bit one (30_encoding.md R84). -/
@[simp] theorem asmImm_ok {n : Nat} {imm : Imm} : asmImm n = .ok imm ↔ n = imm.toNat := by
  have himm := imm.isLt
  unfold asmImm
  split
  · simp [BitVec.toNat_eq]
    omega
  · simp
    omega

/-- A sequence of two checks accepts what both accept. -/
theorem except_bind_ok {α β : Type} {x : Except AsmError α} {f : α → Except AsmError β} {v : β} :
    (x >>= f) = .ok v ↔ ∃ u, x = .ok u ∧ f u = .ok v := by
  cases x <;> simp [bind, Except.bind]

/-- Three registers are accepted together exactly when each one is (30_encoding.md R84). -/
@[simp] theorem asmRegs3_ok {k : Reg → Reg → Reg → Instr} {a b c : Nat} {i : Instr} :
    asmRegs3 k a b c = .ok i ↔
      ∃ ra rb rc : Reg, a = ra.val ∧ b = rb.val ∧ c = rc.val ∧ k ra rb rc = i := by
  simp [asmRegs3, except_bind_ok, pure, Except.pure]

/-! ### The operand table -/

/-- An instruction written in the table's form is accepted as itself (30_encoding.md R84). -/
theorem check_toAsm (i : Instr) : i.toAsm.check = .ok i := by
  cases i <;> simp [Instr.toAsm, AsmInstr.check, except_bind_ok, pure, Except.pure]

/-- What is accepted is written in the table's form: one case for each row of the table, and one for
everything else (30_encoding.md R84). -/
theorem eq_toAsm_of_check {t : AsmInstr} {i : Instr} (h : t.check = .ok i) : t = i.toAsm := by
  obtain ⟨op, operands⟩ := t
  unfold AsmInstr.check at h
  split at h <;>
    simp only [asmRegs3_ok, except_bind_ok, asmReg_ok, asmImm_ok, pure, Except.pure, Except.ok.injEq,
      reduceCtorEq] at h
  case h_1 | h_2 | h_3 | h_4 | h_5 | h_6 | h_7 =>
    obtain ⟨a, b, c, rfl, rfl, rfl, rfl⟩ := h
    simp_all [Instr.toAsm]
  case h_8 =>
    subst h
    simp_all [Instr.toAsm]
  case h_9 | h_13 =>
    obtain ⟨b, rfl, c, rfl, rfl⟩ := h
    simp_all [Instr.toAsm]
  case h_10 | h_11 | h_12 =>
    obtain ⟨c, rfl, rfl⟩ := h
    simp_all [Instr.toAsm]
  case h_14 =>
    obtain ⟨a, rfl, imm, rfl, rfl⟩ := h
    simp_all [Instr.toAsm]

/-- Settles O6: the table's form of an instruction is accepted as it, and nothing else is accepted. -/
theorem acceptedFormsAreTheTable : Obligations.AcceptedFormsAreTheTable := by
  intro t i
  refine ⟨eq_toAsm_of_check, ?_⟩
  rintro rfl
  exact check_toAsm i

end Sys2Proof.Laws
end

section
/-! PROOFS. What an instruction does, said once for all of them: the faults it raises, the register it
computes, and the next state. Every statement over all instructions goes through `exec_next_iff`. -/

namespace Sys2Proof.Machine

/-! ### The faults, the computed registers and the next states -/

/-- The faults of each instruction, with what triggers them (60_exceptions.md R161). -/
inductive Raises (s : State) : Instr → FaultCause → Prop
  | div {a b c : Reg} (hzero : s.reg c = 0#32) : Raises s (.div a b c) .divideByZero
  | sload {a b c : Reg} {e : FaultCause} (herr : s.mem.translate (s.reg b) (s.reg c) = .error e) :
      Raises s (.sload a b c) e
  | sstore {a b c : Reg} {e : FaultCause} (herr : s.mem.translate (s.reg a) (s.reg b) = .error e) :
      Raises s (.sstore a b c) e
  | mapStorage {b c : Reg} (hcap : s.overCap (s.mem.totalWords + (s.reg c).toNat) = true) :
      Raises s (.map b c) .storage
  | mapIds {b c : Reg} (hcap : s.overCap (s.mem.totalWords + (s.reg c).toNat) = false)
      (hfree : s.free = []) (hnext : 2 ^ 32 - 1 < s.nextId) : Raises s (.map b c) .ids
  | unmapZero {c : Reg} (hzero : s.reg c = 0#32) : Raises s (.unmap c) .unmapSegment0
  | unmapUnmapped {c : Reg} (hne : s.reg c ≠ 0#32) (hmap : s.mem.mapped (s.reg c) = false) :
      Raises s (.unmap c) .unmappedId
  | out {c : Reg} (hbig : 255 < (s.reg c).toNat) : Raises s (.out c) .outputRange
  | loadpUnmapped {b c : Reg} (hne : s.reg b ≠ 0#32) (hmap : s.mem.mapped (s.reg b) = false) :
      Raises s (.loadp b c) .unmappedId
  | loadpStorage {b c : Reg} {g : Segment} (hne : s.reg b ≠ 0#32)
      (hfind : s.mem.find (s.reg b) = some g) (hcap : s.overCap (s.mem.totalWords - s.mem.len 0#32 + g.len) = true) :
      Raises s (.loadp b c) .storage

/-- The instructions that write one register and advance, with the register and the value. -/
inductive Computes (s : State) : Instr → Reg → Word → Prop
  | cmov {a b c : Reg} (hne : s.reg c ≠ 0#32) : Computes s (.cmov a b c) a (s.reg b)
  | sload {a b c : Reg} {v : Word} (hread : s.mem.segRead (s.reg b) (s.reg c) = .ok v) :
      Computes s (.sload a b c) a v
  | add {a b c : Reg} : Computes s (.add a b c) a (s.reg b + s.reg c)
  | mul {a b c : Reg} : Computes s (.mul a b c) a (s.reg b * s.reg c)
  | div {a b c : Reg} (hne : s.reg c ≠ 0#32) : Computes s (.div a b c) a (s.reg b / s.reg c)
  | nand {a b c : Reg} : Computes s (.nand a b c) a (~~~(s.reg b &&& s.reg c))
  | li {a : Reg} {imm : Imm} : Computes s (.li a imm) a (immValue imm)

/-- The next states of each instruction. -/
inductive Effect (s : State) : Instr → State → Prop
  | fault {i : Instr} {e : FaultCause} (h : Raises s i e) : Effect s i (s.faulted e)
  | write {i : Instr} {a : Reg} {v : Word} (h : Computes s i a v) : Effect s i (s.setReg a v).advance
  | skip {a b c : Reg} (hzero : s.reg c = 0#32) : Effect s (.cmov a b c) s.advance
  | store {a b c : Reg} {m : Memory} (hwrite : s.mem.segWrite (s.reg a) (s.reg b) (s.reg c) = .ok m) :
      Effect s (.sstore a b c) (s.setMem m).advance
  | mapReused {b c : Reg} {id : Word} {rest : List Word}
      (hcap : s.overCap (s.mem.totalWords + (s.reg c).toNat) = false) (hfree : s.free = id :: rest) :
      Effect s (.map b c)
        ((((s.setFree rest).setMem (s.mem.put id (Segment.zeros (s.reg c).toNat))).setReg b id).advance)
  | mapFresh {b c : Reg} {id : Word} (hcap : s.overCap (s.mem.totalWords + (s.reg c).toNat) = false)
      (hfree : s.free = []) (hnext : s.nextId ≤ 2 ^ 32 - 1) (hid : id = BitVec.ofNat 32 s.nextId) :
      Effect s (.map b c)
        ((((s.setNextId (s.nextId + 1)).setMem
          (s.mem.put id (Segment.zeros (s.reg c).toNat))).setReg b id).advance)
  | unmap {c : Reg} (hne : s.reg c ≠ 0#32) (hmap : s.mem.mapped (s.reg c) = true) :
      Effect s (.unmap c) ((s.setMem (s.mem.remove (s.reg c))).setFree (s.reg c :: s.free)).advance
  | emit {c : Reg} (hbyte : (s.reg c).toNat ≤ 255) :
      Effect s (.out c) (s.emit (lowByte (s.reg c))).advance
  | answer {c : Reg} {e : InputAnswer} {p : InputPort} (hread : s.input.read = some (e, p)) :
      Effect s (.inp c) (((s.setInput p).setWaiting false).setReg c (answerValue e)).advance
  | wait {c : Reg} (hread : s.input.read = none) : Effect s (.inp c) (s.setWaiting true)
  | jump {b c : Reg} (hzero : s.reg b = 0#32) : Effect s (.loadp b c) (s.setPc (s.reg c))
  | replace {b c : Reg} {g : Segment} (hne : s.reg b ≠ 0#32) (hfind : s.mem.find (s.reg b) = some g)
      (hcap : s.overCap (s.mem.totalWords - s.mem.len 0#32 + g.len) = false) :
      Effect s (.loadp b c) ((s.setMem (s.mem.put 0#32 g)).setPc (s.reg c))
  | halt : Effect s .halt s.halt

/-! ### Where SegMap answers -/

/-- SegMap with the storage and a released identifier: it answers that identifier (20_memory.md R55). -/
theorem State.segMap_reused {s : State} {n id : Word} {rest : List Word}
    (hcap : s.overCap (s.mem.totalWords + n.toNat) = false) (hfree : s.free = id :: rest) :
    s.segMap n = .ok (id, (s.setFree rest).setMem (s.mem.put id (Segment.zeros n.toNat))) := by
  simp [State.segMap, hcap, State.issuedId_cons hfree, hfree]

/-- SegMap with the storage and no released identifier: it answers the counter's value (20_memory.md
R55). -/
theorem State.segMap_fresh {s : State} {n : Word}
    (hcap : s.overCap (s.mem.totalWords + n.toNat) = false) (hfree : s.free = [])
    (hnext : s.nextId ≤ 2 ^ 32 - 1) :
    s.segMap n = .ok (BitVec.ofNat 32 s.nextId, (s.setNextId (s.nextId + 1)).setMem
      (s.mem.put (BitVec.ofNat 32 s.nextId) (Segment.zeros n.toNat))) := by
  simp only [State.segMap, hcap, State.issuedId_nil hfree, hfree, if_neg (Nat.not_lt.mpr hnext)]
  rfl

/-! ### Each instruction's meaning, in these terms -/

/-- A raised fault is the instruction's next state (60_exceptions.md R162). -/
theorem Raises.exec {s : State} {i : Instr} {e : FaultCause} (h : Raises s i e) :
    exec i s = .next (s.faulted e) := by
  cases h with
  | div hzero => exact execDiv_next.mpr (.inl ⟨hzero, rfl⟩)
  | sload herr => exact execSload_next.mpr (.inr ⟨_, Memory.segRead_error.mpr herr, rfl⟩)
  | sstore herr => exact execSstore_next.mpr (.inr ⟨_, Memory.segWrite_error.mpr herr, rfl⟩)
  | mapStorage hcap =>
    exact execMap_next.mpr (.inr ⟨_, State.segMap_error.mpr (.inl ⟨hcap, rfl⟩), rfl⟩)
  | mapIds hcap hfree hnext =>
    exact execMap_next.mpr (.inr ⟨_, State.segMap_error.mpr (.inr ⟨hcap, hfree, hnext, rfl⟩), rfl⟩)
  | unmapZero hzero =>
    exact execUnmap_next.mpr (.inr ⟨_, State.segUnmap_error.mpr (.inl ⟨hzero, rfl⟩), rfl⟩)
  | unmapUnmapped hne hmap =>
    exact execUnmap_next.mpr (.inr ⟨_, State.segUnmap_error.mpr (.inr ⟨hne, hmap, rfl⟩), rfl⟩)
  | out hbig => exact execOut_next.mpr (.inr ⟨hbig, rfl⟩)
  | loadpUnmapped hne hmap =>
    have herr := State.segReplace0_error.mpr (.inl ⟨Memory.mapped_eq_false.mp hmap, rfl⟩)
    exact execLoadp_next.mpr (.inr (.inr ⟨hne, _, herr, rfl⟩))
  | loadpStorage hne hfind hcap =>
    have herr := State.segReplace0_error.mpr (.inr ⟨_, hfind, hcap, rfl⟩)
    exact execLoadp_next.mpr (.inr (.inr ⟨hne, _, herr, rfl⟩))

/-- A computed register is written, and the instruction advances (10_state.md R25). -/
theorem Computes.exec {s : State} {i : Instr} {a : Reg} {v : Word} (h : Computes s i a v) :
    exec i s = .next (s.setReg a v).advance := by
  cases h with
  | cmov hne => exact execCmov_next.mpr (.inr ⟨hne, rfl⟩)
  | sload hread => exact execSload_next.mpr (.inl ⟨_, hread, rfl⟩)
  | div hne => exact execDiv_next.mpr (.inr ⟨hne, rfl⟩)
  | add | mul | nand | li => rfl

theorem Effect.exec {s t : State} {i : Instr} (h : Effect s i t) : exec i s = .next t := by
  cases h with
  | fault h => exact h.exec
  | write h => exact h.exec
  | skip hzero => exact execCmov_next.mpr (.inl ⟨hzero, rfl⟩)
  | store hwrite => exact execSstore_next.mpr (.inl ⟨_, hwrite, rfl⟩)
  | mapReused hcap hfree => exact execMap_next.mpr (.inl ⟨_, _, State.segMap_reused hcap hfree, rfl⟩)
  | mapFresh hcap hfree hnext hid =>
    subst hid
    exact execMap_next.mpr (.inl ⟨_, _, State.segMap_fresh hcap hfree hnext, rfl⟩)
  | unmap hne hmap => exact execUnmap_next.mpr (.inl ⟨_, State.segUnmap_ok.mpr ⟨hne, hmap, rfl⟩, rfl⟩)
  | emit hbyte => exact execOut_next.mpr (.inl ⟨hbyte, rfl⟩)
  | answer hread => exact execIn_next.mpr (.inl ⟨_, _, hread, rfl⟩)
  | wait hread => exact execIn_next.mpr (.inr ⟨hread, rfl⟩)
  | jump hzero => exact execLoadp_next.mpr (.inl ⟨hzero, rfl⟩)
  | replace hne hfind hcap =>
    have hok := State.segReplace0_ok.mpr ⟨_, hfind, hcap, rfl⟩
    exact execLoadp_next.mpr (.inr (.inl ⟨hne, _, hok, rfl⟩))
  | halt => rfl

/-- Everything an instruction can do, by instruction. -/
theorem Effect.of_exec {s t : State} {i : Instr} (h : Machine.exec i s = .next t) : Effect s i t := by
  cases i with
  | cmov a b c =>
    obtain ⟨hzero, rfl⟩ | ⟨hne, rfl⟩ := execCmov_next.mp h
    · exact .skip hzero
    · exact .write (.cmov hne)
  | sload a b c =>
    obtain ⟨v, hread, rfl⟩ | ⟨e, herr, rfl⟩ := execSload_next.mp h
    · exact .write (.sload hread)
    · exact .fault (.sload (Memory.segRead_error.mp herr))
  | sstore a b c =>
    obtain ⟨m, hwrite, rfl⟩ | ⟨e, herr, rfl⟩ := execSstore_next.mp h
    · exact .store hwrite
    · exact .fault (.sstore (Memory.segWrite_error.mp herr))
  | add a b c => cases writeAndAdvance_next.mp h; exact .write .add
  | mul a b c => cases writeAndAdvance_next.mp h; exact .write .mul
  | nand a b c => cases writeAndAdvance_next.mp h; exact .write .nand
  | li a imm => cases writeAndAdvance_next.mp h; exact .write .li
  | div a b c =>
    obtain ⟨hzero, rfl⟩ | ⟨hne, rfl⟩ := execDiv_next.mp h
    · exact .fault (.div hzero)
    · exact .write (.div hne)
  | halt => cases h; exact .halt
  | map b c =>
    obtain ⟨id, u, hok, rfl⟩ | ⟨e, herr, rfl⟩ := execMap_next.mp h
    · obtain ⟨hcap, ⟨rest, hfree, rfl⟩ | ⟨hfree, hnext, hid, rfl⟩⟩ := State.segMap_ok hok
      · exact .mapReused hcap hfree
      · exact .mapFresh hcap hfree hnext hid
    · obtain ⟨hcap, rfl⟩ | ⟨hcap, hfree, hnext, rfl⟩ := State.segMap_error.mp herr
      · exact .fault (.mapStorage hcap)
      · exact .fault (.mapIds hcap hfree hnext)
  | unmap c =>
    obtain ⟨u, hok, rfl⟩ | ⟨e, herr, rfl⟩ := execUnmap_next.mp h
    · obtain ⟨hne, hmap, rfl⟩ := State.segUnmap_ok.mp hok
      exact .unmap hne hmap
    · obtain ⟨hzero, rfl⟩ | ⟨hne, hmap, rfl⟩ := State.segUnmap_error.mp herr
      · exact .fault (.unmapZero hzero)
      · exact .fault (.unmapUnmapped hne hmap)
  | out c =>
    obtain ⟨hbyte, rfl⟩ | ⟨hbig, rfl⟩ := execOut_next.mp h
    · exact .emit hbyte
    · exact .fault (.out hbig)
  | inp c =>
    obtain ⟨e, p, hread, rfl⟩ | ⟨hread, rfl⟩ := execIn_next.mp h
    · exact .answer hread
    · exact .wait hread
  | loadp b c =>
    obtain ⟨hzero, rfl⟩ | ⟨hne, u, hok, rfl⟩ | ⟨hne, e, herr, rfl⟩ := execLoadp_next.mp h
    · exact .jump hzero
    · obtain ⟨g, hfind, hcap, rfl⟩ := State.segReplace0_ok.mp hok
      exact .replace hne hfind hcap
    · obtain ⟨hfind, rfl⟩ | ⟨g, hfind, hcap, rfl⟩ := State.segReplace0_error.mp herr
      · exact .fault (.loadpUnmapped hne (Memory.mapped_eq_false.mpr hfind))
      · exact .fault (.loadpStorage hne hfind hcap)

/-- The next states of an instruction are exactly those of Effect. -/
theorem exec_next_iff {s t : State} {i : Instr} : exec i s = .next t ↔ Effect s i t :=
  ⟨Effect.of_exec, Effect.exec⟩

/-- Settles O11: each meaning's test, segment operation or input request has an answer, and each answer
has a next state. -/
theorem everyInstructionAnswersANextState : Obligations.EveryInstructionAnswersANextState := by
  intro i s
  cases i with
  | add | mul | nand | li | halt => exact ⟨_, rfl⟩
  | cmov a b c =>
    by_cases hc : s.reg c = 0#32
    · exact ⟨_, (Effect.skip hc).exec⟩
    · exact ⟨_, (Computes.cmov hc).exec⟩
  | div a b c =>
    by_cases hc : s.reg c = 0#32
    · exact ⟨_, (Raises.div hc).exec⟩
    · exact ⟨_, (Computes.div hc).exec⟩
  | sload a b c =>
    cases hread : s.mem.segRead (s.reg b) (s.reg c) with
    | ok v => exact ⟨_, (Computes.sload hread).exec⟩
    | error e => exact ⟨_, (Raises.sload (Memory.segRead_error.mp hread)).exec⟩
  | sstore a b c =>
    cases hwrite : s.mem.segWrite (s.reg a) (s.reg b) (s.reg c) with
    | ok m => exact ⟨_, (Effect.store hwrite).exec⟩
    | error e => exact ⟨_, (Raises.sstore (Memory.segWrite_error.mp hwrite)).exec⟩
  | map b c =>
    cases hmap : s.segMap (s.reg c) with
    | ok p => exact ⟨_, execMap_next.mpr (.inl ⟨p.1, p.2, hmap, rfl⟩)⟩
    | error e => exact ⟨_, execMap_next.mpr (.inr ⟨e, hmap, rfl⟩)⟩
  | unmap c =>
    cases hunmap : s.segUnmap (s.reg c) with
    | ok u => exact ⟨_, execUnmap_next.mpr (.inl ⟨u, hunmap, rfl⟩)⟩
    | error e => exact ⟨_, execUnmap_next.mpr (.inr ⟨e, hunmap, rfl⟩)⟩
  | out c =>
    by_cases hbyte : (s.reg c).toNat ≤ 255
    · exact ⟨_, (Effect.emit hbyte).exec⟩
    · exact ⟨_, (Raises.out (Nat.lt_of_not_le hbyte)).exec⟩
  | inp c =>
    cases hread : s.input.read with
    | some p => exact ⟨_, (Effect.answer hread).exec⟩
    | none => exact ⟨_, (Effect.wait hread).exec⟩
  | loadp b c =>
    by_cases hb : s.reg b = 0#32
    · exact ⟨_, (Effect.jump hb).exec⟩
    · cases hreplace : s.segReplace0 (s.reg b) with
      | ok u => exact ⟨_, execLoadp_next.mpr (.inr (.inl ⟨hb, u, hreplace, rfl⟩))⟩
      | error e => exact ⟨_, execLoadp_next.mpr (.inr (.inr ⟨hb, e, hreplace, rfl⟩))⟩

end Sys2Proof.Machine
end

section
/-! PROOFS. One step (30_encoding.md R79): what it runs, the states with no step, and the fault it can
end in with its record and its trigger (60_exceptions.md R161, R162, R164, R171). -/

namespace Sys2Proof.Machine

/-! ### What a step runs -/

/-- The step at a word that decodes to an instruction is that instruction (30_encoding.md R79, R81). -/
theorem stepWith_of_instr {m : OpcodeMap} {s : State} {w : Word} {i : Instr}
    (hstep : s.noStep? = none) (hfetch : s.fetch = some w) (hdec : decodeWith m w = .instr i) :
    stepWith m s = exec i s := by
  simp only [stepWith, hstep, hfetch, hdec]

/-- The step with no word at pc takes the fetch fault (30_encoding.md R79, R80). -/
theorem stepWith_of_no_word {m : OpcodeMap} {s : State} (hstep : s.noStep? = none)
    (hfetch : s.fetch = none) : stepWith m s = .next (s.faulted .fetch) := by
  simp only [stepWith, hstep, hfetch, raise]

/-- A state with no step has none under any OPCODE_MAP (30_encoding.md R79). -/
theorem stepWith_of_noStep {m : OpcodeMap} {s : State} {f : Fault} (h : s.noStep? = some f) :
    stepWith m s = .fault f := by
  simp only [stepWith, h]

/-- There is no word at pc exactly at or past the end of segment 0 (30_encoding.md R80). -/
theorem State.fetch_eq_none {s : State} : s.fetch = none ↔ s.mem.len 0#32 ≤ s.pc.toNat :=
  Memory.wordAt_eq_none

/-- Settles O7: the fetched word decodes to the instruction, and nothing stands before or after it. -/
theorem stepRunsTheDecodedInstruction : Obligations.StepRunsTheDecodedInstruction := by
  intro m s w i hrun hwait hword
  have hstep := State.noStep?_eq_none_of_running hrun hwait
  exact ⟨stepWith_of_instr hstep hword, stepWith_of_instr hstep hword⟩

/-- Settles O8: there is no word to fetch, and the fetch fault records pc and no word. -/
theorem fetchPastTheEndFaults : Obligations.FetchPastTheEndFaults := by
  intro s hrun hwait _ hlen
  have hfetch : s.fetch = none := State.fetch_eq_none.mpr hlen
  refine ⟨_, stepWith_of_no_word (State.noStep?_eq_none_of_running hrun hwait) hfetch, ?_,
    .faulted s .fetch⟩
  rw [State.faulted_status, State.record, hfetch]
  rfl

/-! ### No step -/

/-- An ended run has no step (30_encoding.md R79, 60_exceptions.md R171). -/
theorem State.ended.noStep {s : State} (h : s.ended) : ∃ f, s.noStep? = some f := by
  unfold State.noStep?
  cases hs : s.status with
  | running => exact absurd hs h
  | halted => exact ⟨_, rfl⟩
  | faulted f => exact ⟨_, rfl⟩

/-- A run of steps from an ended state stays in it (60_exceptions.md R171). -/
theorem Reaches.eq_of_ended {s t : State} (hs : s.ended) (h : Reaches s t) : t = s := by
  induction h with
  | refl => rfl
  | tail _ hstep ih =>
    subst ih
    obtain ⟨f, hf⟩ := hs.noStep
    rw [step, stepWith_of_noStep hf] at hstep
    cases hstep

/-- Settles O10: no step, so no run, and the two exit codes differ by the parameters' own proof. -/
theorem haltedAndFaultedAbsorb : Obligations.HaltedAndFaultedAbsorb := by
  refine ⟨fun s hs => ?_, fun s t hs => Reaches.eq_of_ended hs, fun s t f hs ht hparams => ?_⟩
  · obtain ⟨f, hf⟩ := hs.noStep
    exact ⟨f, stepWith_of_noStep hf⟩
  · refine ⟨s.params.exitHalt, t.params.exitFault, ?_, ?_, ?_⟩
    · simp only [State.statusPort, hs]
    · simp only [State.statusPort, ht]
    · rw [← hparams]
      exact s.params.distinct

/-- Settles O35: HALT changes the status alone, and a halted state has no step. -/
theorem haltEndsTheRun : Obligations.HaltEndsTheRun := by
  intro s
  exact ⟨s.halt, rfl, rfl, stepWith_of_noStep rfl, fun _ _ => rfl, ⟨rfl, rfl, rfl⟩, rfl, rfl, rfl, rfl⟩

/-! ### How a step ends -/

/-- A step that answers is taken by a Running core (30_encoding.md R79). -/
theorem step_running {s t : State} (h : step s = .next t) : s.status = .running :=
  (State.noStep?_eq_none.mp (step_cases h).1).1

/-- The faults of a step, with what triggers them (30_encoding.md R79, 60_exceptions.md R161). -/
inductive StepRaises (s : State) : FaultCause → Prop
  | fetch (hfetch : s.fetch = none) : StepRaises s .fetch
  | opcode {w : Word} {op : BitVec 4} (hfetch : s.fetch = some w) (hdec : decode w = .invalid op) :
      StepRaises s (.opcode op)
  | instr {w : Word} {i : Instr} {e : FaultCause} (hfetch : s.fetch = some w)
      (hdec : decode w = .instr i) (h : Raises s i e) : StepRaises s e

/-- Everything a step can do: take a fault, or complete or begin the instruction fetched. -/
theorem step_effect {s t : State} (h : step s = .next t) :
    (∃ e, StepRaises s e ∧ t = s.faulted e) ∨
      ∃ w i, s.fetch = some w ∧ decode w = .instr i ∧ Effect s i t := by
  obtain ⟨-, ⟨hfetch, rfl⟩ | ⟨w, op, hfetch, hdec, rfl⟩ | ⟨w, i, hfetch, hdec, hexec⟩⟩ := step_cases h
  · exact .inl ⟨_, .fetch hfetch, rfl⟩
  · exact .inl ⟨_, .opcode hfetch hdec, rfl⟩
  · exact .inr ⟨w, i, hfetch, hdec, .of_exec hexec⟩

/-- An instruction that leaves a Running core Faulted raised a fault (60_exceptions.md R162). -/
theorem Effect.faulted {s t : State} {i : Instr} {f : FaultRecord} (h : Effect s i t)
    (hrun : s.status = .running) (ht : t.status = .faulted f) :
    ∃ e, Raises s i e ∧ t = s.faulted e := by
  cases h with
  | fault h => exact ⟨_, h, rfl⟩
  | _ => simp [hrun] at ht

/-- A step that ends Faulted took a fault, and its record is that fault's (60_exceptions.md R162). -/
theorem step_faulted {s t : State} {f : FaultRecord} (h : step s = .next t)
    (ht : t.status = .faulted f) : ∃ e, StepRaises s e ∧ t = s.faulted e ∧ f = s.record e := by
  have hfault : ∃ e, StepRaises s e ∧ t = s.faulted e := by
    obtain hfault | ⟨w, i, hfetch, hdec, heffect⟩ := step_effect h
    · exact hfault
    · obtain ⟨e, hraise, rfl⟩ := heffect.faulted (step_running h) ht
      exact ⟨e, .instr hfetch hdec hraise, rfl⟩
  obtain ⟨e, hraise, rfl⟩ := hfault
  exact ⟨e, hraise, rfl, (Status.faulted.inj ht).symm⟩

/-- An instruction leaves a Running core Halted exactly when it is HALT (10_state.md R32). -/
theorem Effect.halted_iff {s t : State} {i : Instr} (h : Effect s i t) (hrun : s.status = .running) :
    t.status = .halted ↔ i = .halt := by
  cases h with
  | halt => simp
  | fault h => cases h <;> simp
  | write h => cases h <;> simp [hrun]
  | _ => simp [hrun]

/-- Settles O50: a fault does not halt, and of the instructions HALT alone does. -/
theorem onlyHaltHalts : Obligations.OnlyHaltHalts := by
  intro s t h
  obtain ⟨e, hraise, rfl⟩ | ⟨w, i, hfetch, hdec, heffect⟩ := step_effect h
  · cases hraise with
    | fetch hfetch => simp [hfetch]
    | opcode hfetch hdec => simp [hfetch, hdec]
    | instr hfetch hdec h => cases h <;> simp [hfetch, hdec]
  · simp [heffect.halted_iff (step_running h), hfetch, hdec]

/-! ### The record of a fault -/

/-- Settles O47: the fault taken leaves all but the status, and its record is made from pc, the word
there and the kind. -/
theorem faultsArePreciseAndChangeNothing : Obligations.FaultsArePreciseAndChangeNothing := by
  intro s t f h ht
  obtain ⟨e, -, rfl, rfl⟩ := step_faulted h ht
  refine ⟨.faulted s e, rfl, rfl, ?_⟩
  rw [State.record_kind, State.record_code]
  cases e.kind <;> decide

/-! ### The trigger of each kind -/

/-- The translation fails exactly where there is no cell, and with a bounds fault (20_memory.md R50,
60_exceptions.md R161). -/
theorem Memory.translate_error_bounds {m : Memory} {id off : Word} {e : FaultCause}
    (h : m.translate id off = .error e) :
    e.kind = .boundsError ∧ (m.mapped id = false ∨ m.len id ≤ off.toNat) := by
  obtain ⟨hfind, rfl⟩ | ⟨g, hfind, hlen, rfl⟩ := Memory.translate_error.mp h
  · exact ⟨rfl, .inl (Memory.mapped_eq_false.mpr hfind)⟩
  · exact ⟨rfl, .inr (by simpa [Memory.len, hfind] using hlen)⟩

/-- A mapped segment's length is Len of its identifier (20_memory.md R47). -/
theorem Memory.len_of_find {m : Memory} {id : Word} {g : Segment} (h : m.find id = some g) :
    m.len id = g.len := by
  simp [Memory.len, h]

theorem Memory.mapped_of_find {m : Memory} {id : Word} {g : Segment} (h : m.find id = some g) :
    m.mapped id = true := by
  simp [Memory.mapped, h]

/-- DecodeError comes from an invalid opcode alone (60_exceptions.md R161). -/
theorem StepRaises.decodeError_iff {s : State} {e : FaultCause} (h : StepRaises s e) :
    e.kind = .decodeError ↔ ∃ w op, s.fetch = some w ∧ decode w = .invalid op := by
  cases h with
  | fetch hfetch => simp [hfetch, FaultCause.kind]
  | opcode hfetch hdec => simp [hfetch, hdec, FaultCause.kind]
  | instr hfetch hdec h =>
    cases h with
    | sload herr | sstore herr => simp [hfetch, hdec, (Memory.translate_error_bounds herr).1]
    | _ => simp [hfetch, hdec, FaultCause.kind]

/-- ArithmeticError comes from a division by 0 alone (60_exceptions.md R161). -/
theorem StepRaises.arithmeticError_iff {s : State} {e : FaultCause} (h : StepRaises s e) :
    e.kind = .arithmeticError ↔
      ∃ w a b c, s.fetch = some w ∧ decode w = .instr (.div a b c) ∧ s.reg c = 0#32 := by
  cases h with
  | fetch hfetch => simp [hfetch, FaultCause.kind]
  | opcode hfetch hdec => simp [hfetch, hdec, FaultCause.kind]
  | instr hfetch hdec h =>
    cases h with
    | sload herr | sstore herr => simp [hfetch, hdec, (Memory.translate_error_bounds herr).1]
    | div hzero => simp [hfetch, hdec, hzero, FaultCause.kind]
    | _ => simp [hfetch, hdec, FaultCause.kind]

/-- IOError comes from an output above 255 alone (60_exceptions.md R161). -/
theorem StepRaises.ioError_iff {s : State} {e : FaultCause} (h : StepRaises s e) :
    e.kind = .ioError ↔
      ∃ w c, s.fetch = some w ∧ decode w = .instr (.out c) ∧ 255 < (s.reg c).toNat := by
  cases h with
  | fetch hfetch => simp [hfetch, FaultCause.kind]
  | opcode hfetch hdec => simp [hfetch, hdec, FaultCause.kind]
  | instr hfetch hdec h =>
    cases h with
    | sload herr | sstore herr => simp [hfetch, hdec, (Memory.translate_error_bounds herr).1]
    | out hbig => simp [hfetch, hdec, hbig, FaultCause.kind]
    | _ => simp [hfetch, hdec, FaultCause.kind]

/-- What an instruction finds wrong with an identifier or an offset (60_exceptions.md R161). -/
def BoundsTrigger (s : State) (d : Decoded) : Prop :=
  (∃ a b c, d = .instr (.sload a b c) ∧
      (s.mem.mapped (s.reg b) = false ∨ s.mem.len (s.reg b) ≤ (s.reg c).toNat)) ∨
    (∃ a b c, d = .instr (.sstore a b c) ∧
      (s.mem.mapped (s.reg a) = false ∨ s.mem.len (s.reg a) ≤ (s.reg b).toNat)) ∨
    (∃ c, d = .instr (.unmap c) ∧ (s.reg c = 0#32 ∨ s.mem.mapped (s.reg c) = false)) ∨
    (∃ b c, d = .instr (.loadp b c) ∧ s.reg b ≠ 0#32 ∧ s.mem.mapped (s.reg b) = false)

/-- What an instruction finds exhausted (60_exceptions.md R161). -/
def ExhaustionTrigger (s : State) (d : Decoded) : Prop :=
  (∃ b c, d = .instr (.map b c) ∧
      ((∃ cap, s.params.capWords = some cap ∧ cap < s.mem.totalWords + (s.reg c).toNat) ∨
        (s.free = [] ∧ 2 ^ 32 - 1 < s.nextId))) ∨
    (∃ b c cap, d = .instr (.loadp b c) ∧ s.reg b ≠ 0#32 ∧ s.mem.mapped (s.reg b) = true ∧
      s.params.capWords = some cap ∧ cap < s.mem.totalWords - s.mem.len 0#32 + s.mem.len (s.reg b))

/-- An instruction's fault is a BoundsError exactly for its bounds trigger (60_exceptions.md R161). -/
theorem Raises.boundsError_iff {s : State} {i : Instr} {e : FaultCause} (h : Raises s i e) :
    e.kind = .boundsError ↔ BoundsTrigger s (.instr i) := by
  cases h with
  | sload herr | sstore herr =>
    obtain ⟨hkind, hcell⟩ := Memory.translate_error_bounds herr
    simp [BoundsTrigger, hkind, hcell]
  | unmapZero hzero => simp [BoundsTrigger, FaultCause.kind, hzero]
  | unmapUnmapped hne hmap | loadpUnmapped hne hmap => simp [BoundsTrigger, FaultCause.kind, hne, hmap]
  | loadpStorage hne hfind hcap =>
    simp [BoundsTrigger, FaultCause.kind, Memory.mapped_of_find hfind]
  | _ => simp [BoundsTrigger, FaultCause.kind]

/-- An instruction's fault is a ResourceExhausted exactly for its exhaustion trigger (60_exceptions.md
R161). -/
theorem Raises.resourceExhausted_iff {s : State} {i : Instr} {e : FaultCause} (h : Raises s i e) :
    e.kind = .resourceExhausted ↔ ExhaustionTrigger s (.instr i) := by
  cases h with
  | sload herr | sstore herr => simp [ExhaustionTrigger, (Memory.translate_error_bounds herr).1]
  | mapStorage hcap =>
    simp [ExhaustionTrigger, FaultCause.kind, State.overCap_iff.mp hcap]
  | mapIds hcap hfree hnext =>
    exact iff_of_true rfl (.inl ⟨_, _, rfl, .inr ⟨hfree, hnext⟩⟩)
  | loadpUnmapped hne hmap => simp [ExhaustionTrigger, FaultCause.kind, hmap]
  | loadpStorage hne hfind hcap =>
    simpa [ExhaustionTrigger, FaultCause.kind, hne, Memory.mapped_of_find hfind,
      Memory.len_of_find hfind] using State.overCap_iff.mp hcap
  | _ => simp [ExhaustionTrigger, FaultCause.kind]

/-- BoundsError comes from a fetch past the end or an instruction's bounds trigger alone
(60_exceptions.md R161). -/
theorem StepRaises.boundsError_iff {s : State} {e : FaultCause} (h : StepRaises s e) :
    e.kind = .boundsError ↔
      s.mem.len 0#32 ≤ s.pc.toNat ∨ ∃ w, s.fetch = some w ∧ BoundsTrigger s (decode w) := by
  rw [← State.fetch_eq_none]
  cases h with
  | fetch hfetch => simp [hfetch, FaultCause.kind]
  | opcode hfetch hdec => simp [hfetch, hdec, FaultCause.kind, BoundsTrigger]
  | instr hfetch hdec h => simp [hfetch, hdec, h.boundsError_iff]

/-- ResourceExhausted comes from an instruction's exhaustion trigger alone (60_exceptions.md R161). -/
theorem StepRaises.resourceExhausted_iff {s : State} {e : FaultCause} (h : StepRaises s e) :
    e.kind = .resourceExhausted ↔ ∃ w, s.fetch = some w ∧ ExhaustionTrigger s (decode w) := by
  cases h with
  | fetch hfetch => simp [hfetch, FaultCause.kind]
  | opcode hfetch hdec => simp [hfetch, hdec, FaultCause.kind, ExhaustionTrigger]
  | instr hfetch hdec h => simp [hfetch, hdec, h.resourceExhausted_iff]

/-- Settles O48: the fault taken has each kind exactly for that kind's trigger. -/
theorem faultKindsHaveTheirTriggers : Obligations.FaultKindsHaveTheirTriggers := by
  intro s t f h ht
  obtain ⟨e, hraise, -, rfl⟩ := step_faulted h ht
  exact ⟨hraise.decodeError_iff, hraise.arithmeticError_iff, hraise.ioError_iff,
    hraise.boundsError_iff, hraise.resourceExhausted_iff⟩

/-! ### Which check answers -/

/-- A raised fault ends the run Faulted with its cause recorded (60_exceptions.md R162). -/
theorem Raises.faultsFor {s : State} {i : Instr} {e : FaultCause} (h : Raises s i e) :
    FaultsFor i s e :=
  ⟨_, _, h.exec, State.faulted_status s e, rfl⟩

/-- A raised fault ends the run Faulted with its kind (60_exceptions.md R161, R162). -/
theorem Raises.faults {s : State} {i : Instr} {e : FaultCause} (h : Raises s i e) :
    Faults i s e.kind :=
  .of_faulted h.exec rfl

/-- Settles O49: of the checks that would fail, the first in R164's order raises its fault. -/
theorem faultChecksInOrder : Obligations.FaultChecksInOrder :=
  ⟨fun _ _ hzero => (Raises.unmapZero hzero).faultsFor,
    fun _ _ _ hne hmap => (Raises.loadpUnmapped hne hmap).faultsFor,
    fun _ _ _ cap hbound hover =>
      (Raises.mapStorage (State.overCap_iff.mpr ⟨cap, hbound, hover⟩)).faultsFor,
    fun _ _ _ hunbound hfree hnext =>
      (Raises.mapIds (State.overCap_unbounded hunbound _) hfree hnext).faultsFor⟩

/-- Settles O23: over the capacity the storage check fails; else, with no identifier, the second one. -/
theorem mapExhaustionFaults : Obligations.MapExhaustionFaults := by
  intro b c s
  refine ⟨fun cap hbound hover => ?_, fun hfree hnext => ?_⟩
  · exact (Raises.mapStorage (State.overCap_iff.mpr ⟨cap, hbound, hover⟩)).faults
  · cases hcap : s.overCap (s.mem.totalWords + (s.reg c).toNat) with
    | true => exact (Raises.mapStorage hcap).faults
    | false => exact (Raises.mapIds hcap hfree hnext).faults

end Sys2Proof.Machine
end

section
/-! PROOFS. The invariant (10_state.md R31, R33, 20_memory.md R48, R69): every instruction keeps each of
its four parts, so every step and every run does, from every reset. -/

namespace Sys2Proof.Machine

/-! ### The capacity and the parameters -/

/-- A total is within the capacity when a bounded capacity is at least it (20_memory.md R69). -/
theorem State.overCap_eq_false {s : State} {n : Nat} :
    s.overCap n = false ↔ ∀ cap : Nat, s.params.capWords = some cap → n ≤ cap := by
  rw [← Bool.not_eq_true, State.overCap_iff]
  simp

/-- No instruction changes the parameters (00_scope.md R6). -/
theorem Effect.params {s t : State} {i : Instr} (h : Effect s i t) : t.params = s.params := by
  cases h <;> rfl

/-! ### The canonical form of memory -/

/-- A register's value is a length a segment may have (20_memory.md R48). -/
theorem Segment.zeros_reg_wf (n : Word) : (Segment.zeros n.toNat).wf :=
  Segment.zeros_wf (Nat.le_sub_one_of_lt n.isLt)

/-- Every instruction keeps the memory's canonical form (20_memory.md R48). -/
theorem Effect.mem_wf {s t : State} {i : Instr} (h : Effect s i t) (hwf : s.mem.wf) : t.mem.wf := by
  cases h with
  | store hwrite => exact Memory.segWrite_wf hwf hwrite
  | mapReused | mapFresh => exact Memory.put_wf _ hwf (Segment.zeros_reg_wf _)
  | unmap => exact Memory.remove_wf _ hwf
  | replace hne hfind hcap => exact Memory.put_wf _ hwf (Memory.find_wf hwf hfind)
  | _ => exact hwf

/-! ### The partition of the identifiers -/

/-- The partition depends on what is mapped, the free list and the counter alone (10_state.md R31). -/
theorem ManagerInv.congr {s t : State} (h : ManagerInv s)
    (hmap : ∀ id : Word, t.mem.mapped id = s.mem.mapped id) (hfree : t.free = s.free)
    (hnext : t.nextId = s.nextId) : ManagerInv t where
  zero_mapped := (hmap _).trans h.zero_mapped
  zero_not_free := hfree ▸ h.zero_not_free
  free_nodup := hfree ▸ h.free_nodup
  next_pos := hnext ▸ h.next_pos
  next_le := hnext ▸ h.next_le
  covers id hid := by
    rw [hmap, hfree, hnext]
    exact h.covers id hid
  disjoint id hid := (hmap id).trans (h.disjoint id (hfree ▸ hid))

/-- Mapping the head of the free list moves it from the free to the mapped (20_memory.md R55). -/
theorem ManagerInv.map_reused {s t : State} {id : Word} {rest : List Word} {g : Segment}
    (h : ManagerInv s) (hfree : s.free = id :: rest) (hmem : t.mem = s.mem.put id g)
    (hrest : t.free = rest) (hnext : t.nextId = s.nextId) : ManagerInv t := by
  obtain ⟨hnotin, hnodup⟩ := List.nodup_cons.mp (hfree ▸ h.free_nodup)
  have hmapped : ∀ j : Word, t.mem.mapped j = true ↔ j = id ∨ s.mem.mapped j = true := by
    simp [hmem, Memory.mapped_put]
  refine ⟨(hmapped _).mpr (.inr h.zero_mapped), ?_, hrest ▸ hnodup, hnext ▸ h.next_pos,
    hnext ▸ h.next_le, fun j hj => ?_, fun j hj => ?_⟩
  · have hzero := h.zero_not_free
    rw [hfree] at hzero
    exact hrest ▸ fun hin => hzero (List.mem_cons_of_mem _ hin)
  · rw [hmapped, hrest, hnext, ← h.covers j hj, hfree, List.mem_cons]
    tauto
  · rw [hrest] at hj
    have hne : j ≠ id := fun e => hnotin (e ▸ hj)
    rw [Bool.eq_false_iff, ne_eq, hmapped, not_or]
    exact ⟨hne, Bool.eq_false_iff.mp (h.disjoint j (hfree ▸ List.mem_cons_of_mem _ hj))⟩

/-- Mapping the counter's value moves the counter past it (20_memory.md R55). -/
theorem ManagerInv.map_fresh {s t : State} {id : Word} {g : Segment} (h : ManagerInv s)
    (hle : s.nextId ≤ 2 ^ 32 - 1) (hid : id = BitVec.ofNat 32 s.nextId)
    (hmem : t.mem = s.mem.put id g) (hfree : s.free = []) (hnone : t.free = s.free)
    (hnext : t.nextId = s.nextId + 1) : ManagerInv t := by
  have hnat : id.toNat = s.nextId := by
    rw [hid, BitVec.toNat_ofNat]
    omega
  have hmapped : ∀ j : Word, t.mem.mapped j = true ↔ j = id ∨ s.mem.mapped j = true := by
    simp [hmem, Memory.mapped_put]
  have hempty : t.free = [] := hnone.trans hfree
  refine ⟨(hmapped _).mpr (.inr h.zero_mapped), by simp [hempty], by simp [hempty], by omega,
    by omega, fun j hj => ?_, by simp [hempty]⟩
  have hbelow := h.covers j hj
  rw [hfree] at hbelow
  rw [hmapped, hempty, hnext, or_assoc, hbelow, BitVec.toNat_eq, hnat]
  omega

/-- Unmapping moves a mapped non-zero identifier to the free ones (20_memory.md R57). -/
theorem ManagerInv.unmap {s t : State} {id : Word} (h : ManagerInv s) (hne : id ≠ 0#32)
    (hmap : s.mem.mapped id = true) (hmem : t.mem = s.mem.remove id) (hfree : t.free = id :: s.free)
    (hnext : t.nextId = s.nextId) : ManagerInv t := by
  have hmapped : ∀ j : Word, t.mem.mapped j = true ↔ j ≠ id ∧ s.mem.mapped j = true := by
    simp [hmem, Memory.mapped_remove]
  have hnotin : id ∉ s.free := fun hin => by simp [h.disjoint id hin] at hmap
  refine ⟨(hmapped _).mpr ⟨hne.symm, h.zero_mapped⟩, ?_,
    hfree ▸ List.nodup_cons.mpr ⟨hnotin, h.free_nodup⟩, hnext ▸ h.next_pos, hnext ▸ h.next_le, fun j hj => ?_, fun j hj => ?_⟩
  · rw [hfree, List.mem_cons, not_or]
    exact ⟨hne.symm, h.zero_not_free⟩
  · rw [hmapped, hfree, hnext, ← h.covers j hj, List.mem_cons]
    by_cases hj : j = id
    · simp [hj, hmap]
    · simp [hj]
  · rw [Bool.eq_false_iff, ne_eq, hmapped, not_and, Bool.not_eq_true]
    intro hjid
    rw [hfree, List.mem_cons] at hj
    exact h.disjoint j (hj.resolve_left hjid)

/-- Every instruction keeps the partition of the identifiers (10_state.md R31). -/
theorem Effect.manager {s t : State} {i : Instr} (h : Effect s i t) (hs : ManagerInv s) :
    ManagerInv t := by
  cases h with
  | store hwrite => exact hs.congr (fun id => ((Memory.segWrite_others hwrite).2 id).1) rfl rfl
  | mapReused hcap hfree => exact hs.map_reused hfree rfl rfl rfl
  | mapFresh hcap hfree hnext hid => exact hs.map_fresh hnext hid rfl hfree rfl rfl
  | unmap hne hmap => exact hs.unmap hne hmap rfl rfl rfl
  | replace hne hfind hcap =>
    refine hs.congr (fun id => ?_) rfl rfl
    rw [State.setPc_mem, State.setMem_mem, Memory.mapped_put]
    by_cases hid : id = 0#32
    · simp [hid, hs.zero_mapped]
    · simp [hid]
  | _ => exact hs.congr (fun _ => rfl) rfl rfl

/-! ### The mapped words -/

/-- A word write changes no length, so not the total (20_memory.md R52). -/
theorem totalWords_segWrite {m m' : Memory} {id off v : Word} (hr : Rising m)
    (h : m.segWrite id off v = .ok m') : m'.totalWords = m.totalWords := by
  obtain ⟨g, hfind, -, rfl⟩ := Memory.segWrite_ok.mp h
  have hput := totalWords_put_old (g.write off.toNat v) hr hfind
  rw [Segment.write_len] at hput
  exact Nat.add_right_cancel hput

/-- Every instruction keeps the mapped words within the capacity (20_memory.md R69). -/
theorem Effect.cap {s t : State} {i : Instr} (h : Effect s i t) (hs : Inv s) (c : Nat)
    (hc : t.params.capWords = some c) : t.mem.totalWords ≤ c := by
  rw [h.params] at hc
  have htotal := hs.cap c hc
  cases h with
  | store hwrite =>
    exact le_of_eq_of_le (totalWords_segWrite hs.mem_wf.1 hwrite) htotal
  | mapReused hcap hfree =>
    have hnew := hs.manager.segMap_unmapped (State.segMap_reused hcap hfree)
    refine le_of_eq_of_le (totalWords_put_new _ (Memory.mapped_eq_false.mp hnew)) ?_
    exact State.overCap_eq_false.mp hcap c hc
  | mapFresh hcap hfree hnext hid =>
    subst hid
    have hnew := hs.manager.segMap_unmapped (State.segMap_fresh hcap hfree hnext)
    refine le_of_eq_of_le (totalWords_put_new _ (Memory.mapped_eq_false.mp hnew)) ?_
    exact State.overCap_eq_false.mp hcap c hc
  | unmap => exact le_trans totalWords_remove htotal
  | @replace _ _ g hne hfind hcap =>
    obtain ⟨z, hzero, hlen⟩ := Memory.mapped_iff.mp hs.manager.zero_mapped
    have hput := totalWords_put_old g hs.mem_wf.1 hzero
    have hfit := State.overCap_eq_false.mp hcap c hc
    have hpart := len_le_totalWords hzero
    rw [State.setPc_mem, State.setMem_mem]
    omega
  | _ => exact htotal

/-! ### The wait -/

/-- Only an IN changes the waiting bit: it ends the wait, or begins it with all else unchanged
(10_state.md R33). -/
theorem Effect.waiting_cases {s t : State} {i : Instr} (h : Effect s i t) :
    (i.op ≠ .inp ∧ t.waitingInput = s.waitingInput) ∨ t.waitingInput = false ∨
      (i.op = .inp ∧ t = s.setWaiting true) := by
  cases h with
  | answer => exact .inr (.inl rfl)
  | wait => exact .inr (.inr ⟨rfl, rfl⟩)
  | fault h => exact .inl ⟨by cases h <;> simp [Instr.op], rfl⟩
  | write h => exact .inl ⟨by cases h <;> simp [Instr.op], rfl⟩
  | _ => exact .inl ⟨by simp [Instr.op], rfl⟩

/-- A core that stands at anything but an IN does not wait (10_state.md R33). -/
theorem Inv.not_waiting {s : State} (hs : Inv s)
    (h : ∀ (w : Word) (c : Reg), s.fetch = some w → decode w ≠ .instr (.inp c)) :
    s.waitingInput = false := by
  refine Bool.eq_false_iff.mpr fun hwait => ?_
  obtain ⟨-, w, c, hfetch, hdec⟩ := hs.waiting hwait
  exact h w c hfetch hdec

/-- A step that takes a fault is not taken by a waiting core (10_state.md R33). -/
theorem StepRaises.not_waiting {s : State} {e : FaultCause} (h : StepRaises s e) (hs : Inv s) :
    s.waitingInput = false := by
  refine hs.not_waiting fun w c hw => ?_
  cases h with
  | fetch hfetch => simp [hfetch] at hw
  | opcode hfetch hdec =>
    cases hfetch.symm.trans hw
    simp [hdec]
  | instr hfetch hdec h =>
    cases hfetch.symm.trans hw
    cases h <;> simp [hdec]

/-! ### Steps, answers, resets and runs -/

/-- A fault keeps the invariant: nothing but the status changes, and the core did not wait
(60_exceptions.md R162). -/
theorem Inv.faulted {s : State} {e : FaultCause} (hs : Inv s) (h : StepRaises s e) :
    Inv (s.faulted e) where
  mem_wf := hs.mem_wf
  manager := hs.manager.congr (fun _ => rfl) rfl rfl
  cap := hs.cap
  waiting hwait := by simp [h.not_waiting hs] at hwait

/-- An instruction run by a step keeps the invariant (10_state.md R31, R33). -/
theorem Effect.inv {s t : State} {w : Word} {i : Instr} (h : Effect s i t) (hs : Inv s)
    (hrun : s.status = .running) (hfetch : s.fetch = some w) (hdec : decode w = .instr i) : Inv t where
  mem_wf := h.mem_wf hs.mem_wf
  manager := h.manager hs.manager
  cap := h.cap hs
  waiting hwait := by
    obtain ⟨hop, hsame⟩ | hover | ⟨hop, rfl⟩ := h.waiting_cases
    · obtain ⟨-, w', c, hfetch', hdec'⟩ := hs.waiting (hsame ▸ hwait)
      obtain rfl : w' = w := by simpa [hfetch] using hfetch'.symm
      obtain rfl : i = .inp c := by simpa [hdec] using hdec'
      exact absurd rfl hop
    · simp [hover] at hwait
    · cases i with
      | inp c => exact ⟨hrun, w, c, hfetch, hdec⟩
      | _ => cases hop

/-- Settles O51: a step takes a fault or runs one instruction, and each keeps the invariant. -/
theorem everyStepKeepsTheInvariant : Obligations.EveryStepKeepsTheInvariant := by
  intro s t hs h
  obtain ⟨e, hraise, rfl⟩ | ⟨w, i, hfetch, hdec, heffect⟩ := step_effect h
  · exact hs.faulted hraise
  · exact heffect.inv hs (step_running h) hfetch hdec

/-- Settles O52: the answer changes the input port alone, and the invariant does not speak of it. -/
theorem hostAnswerKeepsTheInvariant : Obligations.HostAnswerKeepsTheInvariant := fun _ _ hs =>
  ⟨hs.mem_wf, hs.manager.congr (fun _ => rfl) rfl rfl, hs.cap, hs.waiting⟩

/-- After a reset 0 is the one mapped identifier, none is free and the counter is 1 (10_state.md R31,
70_reset_and_hazards.md R180). -/
theorem bootState_manager (p : Params) (answers : List InputAnswer) (tail : InputTail)
    (prog : List Word) : ManagerInv (bootState p answers tail prog) where
  zero_mapped := (bootState_mapped p answers tail prog 0#32).mpr rfl
  zero_not_free := List.not_mem_nil
  free_nodup := List.nodup_nil
  next_pos := le_refl 1
  next_le := (by decide : 1 ≤ 2 ^ 32)
  covers id hid := by
    have hpos : id.toNat ≠ 0 := fun e => hid (BitVec.eq_of_toNat_eq e)
    have hnext : (bootState p answers tail prog).nextId = 1 := rfl
    have hfree : (bootState p answers tail prog).free = [] := rfl
    rw [bootState_mapped, hfree, hnext]
    simp only [hid, List.not_mem_nil, or_self, false_iff]
    omega
  disjoint _ hid := absurd hid List.not_mem_nil

/-- The mapped words after a reset are the program's (70_reset_and_hazards.md R180). -/
theorem bootState_totalWords (p : Params) (answers : List InputAnswer) (tail : InputTail)
    (prog : List Word) : (bootState p answers tail prog).mem.totalWords = prog.length := by
  simp [bootState, Memory.totalWords]

/-- A program fits the capacity when a bounded capacity is at least its length (20_memory.md R69). -/
theorem fitsCap_iff {p : Params} {n : Nat} :
    fitsCap p n = true ↔ ∀ cap : Nat, p.capWords = some cap → n ≤ cap := by
  unfold fitsCap
  cases p.capWords <;> simp

/-- Settles O55: an accepted reset's program is within both limits. -/
theorem everyAcceptedResetMeetsTheInvariant : Obligations.EveryAcceptedResetMeetsTheInvariant := by
  intro p answers tail prog s h
  obtain ⟨hmax, hfits, rfl⟩ := resetWith_ok.mp h
  refine ⟨bootState_mem_wf p answers tail hmax, bootState_manager p answers tail prog,
    fun cap hcap => ?_, fun hwait => by cases hwait⟩
  rw [bootState_totalWords]
  exact fitsCap_iff.mp hfits cap hcap

/-- Settles O53: State.reset is the reset with the empty program. -/
theorem resetMeetsTheInvariant : Obligations.ResetMeetsTheInvariant :=
  everyAcceptedResetMeetsTheInvariant Config.reference [] .eosForever [] State.reset rfl

/-- Settles O59: every step and every answer of the host keeps the invariant, and the reset meets it. -/
theorem reachableStatesMeetTheInvariant : Obligations.ReachableStatesMeetTheInvariant :=
  fun p answers tail prog s _ hreset => Runs.keeps everyStepKeepsTheInvariant
    hostAnswerKeepsTheInvariant (everyAcceptedResetMeetsTheInvariant p answers tail prog s hreset)

end Sys2Proof.Machine
end

section
/-! PROOFS. What an instruction leaves unchanged, reads and does to pc (30_encoding.md R81, R82,
10_state.md R21, R25, R26), field by field, and what a run shows at the ports (10_state.md R41, R42). -/

namespace Sys2Proof.Machine

/-! ### Registers -/

/-- The register computed is the one the instruction writes (10_state.md R21). -/
theorem Computes.writtenRegs {s : State} {i : Instr} {a : Reg} {v : Word} (h : Computes s i a v) :
    writtenRegs i = [a] := by
  cases h <;> rfl

/-- Writing one register leaves the others (10_state.md R20). -/
theorem State.setReg_reg_of_not_mem (s : State) {a r : Reg} (v : Word) (h : r ∉ [a]) :
    (s.setReg a v).reg r = s.reg r :=
  State.setReg_reg_ne s a r v (List.ne_of_not_mem_cons h)

/-- No register changes but those the instruction writes (10_state.md R21). -/
theorem Effect.regs {s t : State} {i : Instr} (h : Effect s i t) :
    SameRegsBut (writtenRegs i) s t := by
  intro r hr
  cases h with
  | write h =>
    rw [h.writtenRegs] at hr
    exact State.setReg_reg_of_not_mem s _ hr
  | mapReused | mapFresh | answer => exact State.setReg_reg_of_not_mem _ _ hr
  | _ => rfl

/-! ### Segments -/

/-- Only SSTORE, MAP, UNMAP and LOADP change the segment table (30_encoding.md R81). -/
theorem Effect.mem_eq {s t : State} {i : Instr} (h : Effect s i t)
    (hop : i.op ∉ [Op.sstore, .map, .unmap, .loadp]) : t.mem = s.mem := by
  cases h with
  | store | mapReused | mapFresh | unmap | replace => simp [Instr.op] at hop
  | _ => rfl

/-- SSTORE changes no word but the one it names, no mapping and no length (20_memory.md R52). -/
theorem Effect.sstore_words {s t : State} {a b c : Reg} (h : Effect s (.sstore a b c) t) :
    (∀ id off : Word, ¬(id = s.reg a ∧ off = s.reg b) → t.mem.wordAt id off = s.mem.wordAt id off) ∧
      ∀ id : Word, t.mem.mapped id = s.mem.mapped id ∧ t.mem.len id = s.mem.len id := by
  cases h with
  | store hwrite => exact Memory.segWrite_others hwrite
  | fault => exact ⟨fun _ _ _ => rfl, fun _ => ⟨rfl, rfl⟩⟩
  | write h => cases h

/-- MAP changes no segment but that of the identifier it issues (20_memory.md R55). -/
theorem Effect.map_segments {s t : State} {b c : Reg} (h : Effect s (.map b c) t) :
    SameSegmentsBut s.issuedId s t := by
  cases h with
  | mapReused hcap hfree =>
    rw [State.issuedId_cons hfree]
    exact .of_put rfl
  | mapFresh hcap hfree hnext hid =>
    rw [State.issuedId_nil hfree, ← hid]
    exact .of_put rfl
  | fault => exact .of_mem_eq rfl
  | write h => cases h

/-- UNMAP changes no segment but the one it names (20_memory.md R57). -/
theorem Effect.unmap_segments {s t : State} {c : Reg} (h : Effect s (.unmap c) t) :
    SameSegmentsBut (s.reg c) s t := by
  cases h with
  | unmap => exact .of_remove rfl
  | fault => exact .of_mem_eq rfl
  | write h => cases h

/-- LOADP changes no segment but 0, and with identifier 0 none (42_program_control.md R135). -/
theorem Effect.loadp_segments {s t : State} {b c : Reg} (h : Effect s (.loadp b c) t) :
    SameSegmentsBut 0#32 s t ∧ (s.reg b = 0#32 → t.mem = s.mem) := by
  cases h with
  | replace hne => exact ⟨.of_put rfl, fun hzero => absurd hzero hne⟩
  | fault | jump => exact ⟨.of_mem_eq rfl, fun _ => rfl⟩
  | write h => cases h

/-! ### The free list and the counter -/

/-- Only MAP and UNMAP change the free list (20_memory.md R55, R57). -/
theorem Effect.free_eq {s t : State} {i : Instr} (h : Effect s i t) (hop : i.op ∉ [Op.map, .unmap]) :
    t.free = s.free := by
  cases h with
  | mapReused | unmap => simp [Instr.op] at hop
  | _ => rfl

/-- MAP takes the head of the free list or leaves it (20_memory.md R55). -/
theorem Effect.map_free {s t : State} {b c : Reg} (h : Effect s (.map b c) t) :
    t.free = s.free ∨ t.free = s.free.tail := by
  cases h with
  | mapReused hcap hfree => exact .inr (by simp [hfree])
  | fault | mapFresh => exact .inl rfl
  | write h => cases h

/-- UNMAP puts the identifier on top of the free list or leaves it (20_memory.md R57). -/
theorem Effect.unmap_free {s t : State} {c : Reg} (h : Effect s (.unmap c) t) :
    t.free = s.free ∨ t.free = s.reg c :: s.free := by
  cases h with
  | unmap => exact .inr rfl
  | fault => exact .inl rfl
  | write h => cases h

/-- Only a MAP from an empty free list changes the counter, by one (20_memory.md R55). -/
theorem Effect.nextId_cases {s t : State} {i : Instr} (h : Effect s i t) :
    t.nextId = s.nextId ∨ (i.op = .map ∧ s.free = [] ∧ t.nextId = s.nextId + 1) := by
  cases h with
  | mapFresh hcap hfree => exact .inr ⟨rfl, hfree, rfl⟩
  | _ => exact .inl rfl

/-! ### The ports and the status -/

/-- Only OUT changes the output, by the low byte of its register (43_io.md R140). -/
theorem Effect.out_cases {s t : State} {i : Instr} (h : Effect s i t) :
    t.out = s.out ∨ ∃ c, i = .out c ∧ t.out = s.out ++ [lowByte (s.reg c)] := by
  cases h with
  | emit => exact .inr ⟨_, rfl, rfl⟩
  | _ => exact .inl rfl

/-- Only IN changes the input port or the waiting bit (43_io.md R141, 10_state.md R33). -/
theorem Effect.input_eq {s t : State} {i : Instr} (h : Effect s i t) (hop : i.op ≠ .inp) :
    t.input = s.input ∧ t.waitingInput = s.waitingInput := by
  cases h with
  | answer | wait => exact absurd rfl hop
  | _ => exact ⟨rfl, rfl⟩

/-- An instruction that completes keeps the status, HALT halts, and a fault faults (10_state.md R32). -/
theorem Effect.status_cases {s t : State} {i : Instr} (h : Effect s i t) :
    t.status = s.status ∨ (i = .halt ∧ t.status = .halted) ∨ ∃ f, t.status = .faulted f := by
  cases h with
  | halt => exact .inr (.inl ⟨rfl, rfl⟩)
  | fault => exact .inr (.inr ⟨_, rfl⟩)
  | _ => exact .inl rfl

/-- Settles O43: field by field, what each instruction may change. -/
theorem everyInstructionKeepsItsFrame : Obligations.EveryInstructionKeepsItsFrame := by
  intro i s t hexec
  have h := Effect.of_exec hexec
  refine ⟨h.regs, h.mem_eq, ?_, ?_, ?_, ?_, h.free_eq, ?_, ?_, ?_, ?_, ?_, ?_, h.input_eq, h.params,
    h.status_cases⟩
  · rintro a b c rfl
    exact h.sstore_words
  · rintro b c rfl
    exact h.map_segments
  · rintro c rfl
    exact h.unmap_segments
  · rintro b c rfl
    exact h.loadp_segments
  · rintro b c rfl
    exact h.map_free
  · rintro c rfl
    exact h.unmap_free
  · exact fun hop => h.nextId_cases.resolve_right fun hmap => hop hmap.1
  · exact fun _ => h.nextId_cases.imp_right And.right
  · intro hop
    obtain hout | ⟨c, rfl, -⟩ := h.out_cases
    · exact hout
    · exact absurd rfl hop
  · rintro c rfl
    obtain hout | ⟨c', hc, hout⟩ := h.out_cases
    · exact .inl hout
    · cases hc
      exact .inr hout

/-! ### Only the registers read matter -/

/-- The state with other registers: what SameButRegs allows. -/
def State.setRegs (s : State) (regs : Vector Word 8) : State := { s with regs := regs }

theorem SameButRegs.eq_setRegs {s s' : State} (h : SameButRegs s s') : s' = s.setRegs s'.regs := h

/-- What holds of each of two registers read, by register. -/
theorem forall_reg_pair {P : Reg → Prop} {a b : Reg} : (∀ r ∈ [a, b], P r) ↔ P a ∧ P b := by
  simp

/-- Two states that differ in registers alone raise the same fault, if they agree on those read
(10_state.md R21). -/
theorem Raises.congr {s : State} {i : Instr} {e : FaultCause} {regs : Vector Word 8}
    (h : Raises s i e) (hread : ∀ r ∈ readRegs i, (s.setRegs regs).reg r = s.reg r) :
    Raises (s.setRegs regs) i e := by
  cases h with
  | div hzero =>
    obtain ⟨-, hc⟩ := forall_reg_pair.mp hread
    exact .div (hc.trans hzero)
  | sload herr =>
    obtain ⟨hb, hc⟩ := forall_reg_pair.mp hread
    rw [← hb, ← hc] at herr
    exact .sload herr
  | sstore herr =>
    obtain ⟨ha, hbc⟩ := List.forall_mem_cons.mp hread
    obtain ⟨hb, -⟩ := forall_reg_pair.mp hbc
    rw [← ha, ← hb] at herr
    exact .sstore herr
  | mapStorage hcap =>
    rw [← List.forall_mem_singleton.mp hread] at hcap
    exact .mapStorage hcap
  | mapIds hcap hfree hnext =>
    rw [← List.forall_mem_singleton.mp hread] at hcap
    exact .mapIds hcap hfree hnext
  | unmapZero hzero => exact .unmapZero ((List.forall_mem_singleton.mp hread).trans hzero)
  | unmapUnmapped hne hmap =>
    rw [← List.forall_mem_singleton.mp hread] at hne hmap
    exact .unmapUnmapped hne hmap
  | out hbig =>
    rw [← List.forall_mem_singleton.mp hread] at hbig
    exact .out hbig
  | loadpUnmapped hne hmap =>
    obtain ⟨hb, -⟩ := forall_reg_pair.mp hread
    rw [← hb] at hne hmap
    exact .loadpUnmapped hne hmap
  | loadpStorage hne hfind hcap =>
    obtain ⟨hb, -⟩ := forall_reg_pair.mp hread
    rw [← hb] at hne hfind
    exact .loadpStorage hne hfind hcap

/-- Two states that differ in registers alone compute the same value, if they agree on those read
(10_state.md R21). -/
theorem Computes.congr {s : State} {i : Instr} {a : Reg} {v : Word} {regs : Vector Word 8}
    (h : Computes s i a v) (hread : ∀ r ∈ readRegs i, (s.setRegs regs).reg r = s.reg r) :
    Computes (s.setRegs regs) i a v := by
  cases h with
  | li => exact .li
  | sload hok =>
    obtain ⟨hb, hc⟩ := forall_reg_pair.mp hread
    rw [← hb, ← hc] at hok
    exact .sload hok
  | cmov hne =>
    obtain ⟨hb, hc⟩ := forall_reg_pair.mp hread
    rw [← hc] at hne
    exact hb ▸ .cmov hne
  | div hne =>
    obtain ⟨hb, hc⟩ := forall_reg_pair.mp hread
    rw [← hc] at hne
    rw [← hb, ← hc]
    exact .div hne
  | add =>
    obtain ⟨hb, hc⟩ := forall_reg_pair.mp hread
    rw [← hb, ← hc]
    exact .add
  | mul =>
    obtain ⟨hb, hc⟩ := forall_reg_pair.mp hread
    rw [← hb, ← hc]
    exact .mul
  | nand =>
    obtain ⟨hb, hc⟩ := forall_reg_pair.mp hread
    rw [← hb, ← hc]
    exact .nand

/-- Writing the same value to a register of two states makes it the same in both, and leaves every
other register of each (10_state.md R20). -/
theorem State.setReg_reg_same_or_untouched (s s' : State) (a r : Reg) (v : Word) :
    (s'.setReg a v).reg r = (s.setReg a v).reg r ∨
      ((s.setReg a v).reg r = s.reg r ∧ (s'.setReg a v).reg r = s'.reg r) := by
  by_cases hr : r = a
  · subst hr
    exact .inl (by simp)
  · exact .inr ⟨State.setReg_reg_ne _ _ _ _ hr, State.setReg_reg_ne _ _ _ _ hr⟩

/-- An instruction does the same from two states that differ in registers alone, if they agree on those
it reads (10_state.md R21, 30_encoding.md R82). -/
theorem Effect.congr {s t : State} {i : Instr} {regs : Vector Word 8} (h : Effect s i t)
    (hread : ∀ r ∈ readRegs i, (s.setRegs regs).reg r = s.reg r) :
    ∃ t', Effect (s.setRegs regs) i t' ∧ SameButRegs t t' ∧
      ∀ r : Reg, t'.reg r = t.reg r ∨ (t.reg r = s.reg r ∧ t'.reg r = (s.setRegs regs).reg r) := by
  have htouched := State.setReg_reg_same_or_untouched s (s.setRegs regs)
  cases h with
  | fault h => exact ⟨_, .fault (h.congr hread), rfl, fun _ => .inr ⟨rfl, rfl⟩⟩
  | write h => exact ⟨_, .write (h.congr hread), rfl, fun r => htouched _ r _⟩
  | answer hok => exact ⟨_, .answer hok, rfl, fun r => htouched _ r _⟩
  | wait hno => exact ⟨_, .wait hno, rfl, fun _ => .inr ⟨rfl, rfl⟩⟩
  | halt => exact ⟨_, .halt, rfl, fun _ => .inr ⟨rfl, rfl⟩⟩
  | skip hzero =>
    obtain ⟨hb, hc⟩ := forall_reg_pair.mp hread
    exact ⟨_, .skip (hc.trans hzero), rfl, fun _ => .inr ⟨rfl, rfl⟩⟩
  | store hwrite =>
    obtain ⟨ha, hbc⟩ := List.forall_mem_cons.mp hread
    obtain ⟨hb, hc⟩ := forall_reg_pair.mp hbc
    rw [← ha, ← hb, ← hc] at hwrite
    exact ⟨_, .store hwrite, rfl, fun _ => .inr ⟨rfl, rfl⟩⟩
  | mapReused hcap hfree =>
    have hc := List.forall_mem_singleton.mp hread
    rw [← hc] at hcap ⊢
    exact ⟨_, .mapReused hcap hfree, rfl, fun r => htouched _ r _⟩
  | mapFresh hcap hfree hnext hid =>
    have hc := List.forall_mem_singleton.mp hread
    rw [← hc] at hcap ⊢
    exact ⟨_, .mapFresh hcap hfree hnext hid, rfl, fun r => htouched _ r _⟩
  | unmap hne hmap =>
    have hc := List.forall_mem_singleton.mp hread
    rw [← hc] at hne hmap ⊢
    exact ⟨_, .unmap hne hmap, rfl, fun _ => .inr ⟨rfl, rfl⟩⟩
  | emit hbyte =>
    have hc := List.forall_mem_singleton.mp hread
    rw [← hc] at hbyte ⊢
    exact ⟨_, .emit hbyte, rfl, fun _ => .inr ⟨rfl, rfl⟩⟩
  | jump hzero =>
    obtain ⟨hb, hc⟩ := forall_reg_pair.mp hread
    rw [← hb] at hzero
    rw [← hc]
    exact ⟨_, .jump hzero, rfl, fun _ => .inr ⟨rfl, rfl⟩⟩
  | replace hne hfind hcap =>
    obtain ⟨hb, hc⟩ := forall_reg_pair.mp hread
    rw [← hb] at hne hfind
    rw [← hc]
    exact ⟨_, .replace hne hfind hcap, rfl, fun _ => .inr ⟨rfl, rfl⟩⟩

/-- Settles O44: the same effect, from the registers read, on what the two states share. -/
theorem onlyReadRegistersMatter : Obligations.OnlyReadRegistersMatter := by
  intro i s s' t hsame hread hexec
  rw [hsame.eq_setRegs] at hread ⊢
  obtain ⟨t', heffect, hsame', hregs⟩ := (Effect.of_exec hexec).congr hread
  exact ⟨t', heffect.exec, hsame', hregs⟩

/-! ### pc -/

/-- An instruction that ends the run leaves pc (10_state.md R25). -/
theorem Effect.pc_of_ended {s t : State} {i : Instr} (h : Effect s i t) (hrun : s.status = .running)
    (ht : t.ended) : t.pc = s.pc := by
  cases h with
  | fault | halt => rfl
  | _ => exact absurd hrun ht

/-- An IN that begins to wait leaves pc (10_state.md R33). -/
theorem Effect.pc_of_waiting {s t : State} {i : Instr} (h : Effect s i t) (hop : i.op = .inp)
    (ht : t.waitingInput = true) : t.pc = s.pc := by
  cases h with
  | fault | halt | wait => rfl
  | answer => cases ht
  | write h => cases h <;> cases hop
  | _ => cases hop

/-- An instruction that completes, but LOADP, advances pc by one (10_state.md R25). -/
theorem Effect.pc_of_completed {s t : State} {i : Instr} (h : Effect s i t) (ht : t.status = .running)
    (hanswer : i.op = .inp → t.waitingInput = false) (hop : i.op ≠ .loadp) : t.pc = s.pc + 1#32 := by
  cases h with
  | fault | halt => cases ht
  | wait => cases hanswer rfl
  | jump | replace => exact absurd rfl hop
  | _ => rfl

/-- A LOADP that completes goes to its target (42_program_control.md R135). -/
theorem Effect.pc_of_loadp {s t : State} {b c : Reg} (h : Effect s (.loadp b c) t)
    (ht : t.status = .running) : t.pc = s.reg c := by
  cases h with
  | fault => cases ht
  | jump | replace => rfl
  | write h => cases h

/-- Settles O45: a fault, HALT and a wait leave pc, LOADP sets it, the others advance it. -/
theorem pcAfterEachInstruction : Obligations.PcAfterEachInstruction := by
  intro i s t hrun hexec
  have h := Effect.of_exec hexec
  refine ⟨fun f ht => h.pc_of_ended hrun ?_, fun ht => h.pc_of_ended hrun ?_,
    fun _ ht hop => h.pc_of_waiting hop ht, fun ht hanswer hop => h.pc_of_completed ht hanswer hop, ?_⟩
  · simp [State.ended, ht]
  · simp [State.ended, ht]
  · rintro b c rfl
    exact h.pc_of_loadp

/-- A word is fetched from an offset below segment 0's length, which is at most 2^32-1 (10_state.md
R26, 20_memory.md R48). -/
theorem State.pc_lt_of_fetch {s : State} {w : Word} (hwf : s.mem.wf) (hfetch : s.fetch = some w) :
    s.pc.toNat < 2 ^ 32 - 1 := by
  obtain ⟨g, hfind, hlt, -⟩ := Memory.wordAt_eq_some.mp hfetch
  obtain ⟨-, -, hlen⟩ := Memory.find_wf hwf hfind
  exact lt_of_lt_of_le hlt hlen

/-- Settles O46: the instruction advances pc, and pc was below a length of at most 2^32-1. -/
theorem pcNeverWraps : Obligations.PcNeverWraps := by
  intro s t w i hs hstep hfetch hdec hop hrun hanswer
  have hlt := State.pc_lt_of_fetch hs.mem_wf hfetch
  obtain ⟨e, -, rfl⟩ | ⟨w', i', hfetch', hdec', h⟩ := step_effect hstep
  · cases hrun
  · obtain rfl : w' = w := by simpa [hfetch] using hfetch'.symm
    obtain rfl : i' = i := by simpa [hdec] using hdec'.symm
    rw [h.pc_of_completed hrun (fun _ => hanswer) hop, BitVec.toNat_add, BitVec.toNat_ofNat]
    omega

/-! ### What a run shows at the ports -/

/-- Only IN changes the input port, by consuming one answer (10_state.md R41). -/
theorem Effect.input_cases {s t : State} {i : Instr} (h : Effect s i t) :
    t.input = s.input ∨ ∃ c e, i = .inp c ∧ t.input.consumed = s.input.consumed ++ [e] := by
  cases h with
  | answer hread => exact .inr ⟨_, _, rfl, (InputPort.read_some hread).1⟩
  | _ => exact .inl rfl

/-- Settles O41: a fault leaves both ports, and of the instructions OUT and IN alone change one. -/
theorem oneByteOrOneAnswerAStep : Obligations.OneByteOrOneAnswerAStep := by
  intro s t hstep
  obtain ⟨e, -, rfl⟩ | ⟨w, i, hfetch, hdec, h⟩ := step_effect hstep
  · exact ⟨.inl rfl, .inl rfl⟩
  · refine ⟨h.out_cases.imp_right ?_, h.input_cases.imp_right ?_⟩
    · rintro ⟨c, rfl, hout⟩
      exact ⟨w, c, _, hfetch, hdec, hout⟩
    · rintro ⟨c, e, rfl, hin⟩
      exact ⟨w, c, e, hfetch, hdec, hin⟩

/-- A step adds to what has been emitted and consumed at the end alone (10_state.md R41, R42). -/
theorem step_grows {s t : State} (h : step s = .next t) :
    s.out <+: t.out ∧ s.input.consumed <+: t.input.consumed := by
  obtain ⟨hout, hin⟩ := oneByteOrOneAnswerAStep s t h
  constructor
  · obtain hsame | ⟨w, c, v, -, -, happend⟩ := hout
    · rw [hsame]
    · exact ⟨[v], happend.symm⟩
  · obtain hsame | ⟨w, c, e, -, -, happend⟩ := hin
    · rw [hsame]
    · exact ⟨[e], happend.symm⟩

/-- Settles O40: each step only grows both, and an answer of the host touches neither. -/
theorem observationsOnlyGrow : Obligations.ObservationsOnlyGrow := by
  intro s t h
  refine Runs.keeps (P := fun u => s.out <+: u.out ∧ s.input.consumed <+: u.input.consumed)
    (fun u v hu hstep => ?_) (fun _ _ hu => hu) ⟨List.prefix_rfl, List.prefix_rfl⟩ h
  obtain ⟨hout, hin⟩ := step_grows hstep
  exact ⟨hu.1.trans hout, hu.2.trans hin⟩

end Sys2Proof.Machine
end

section
/-! PROOFS. DIV (40_register_ops.md R103), and short sequences of instructions: the derived subtraction
(R106), the pseudo-instructions (30_encoding.md R85) and the derived conditional jump
(42_program_control.md R136). -/

namespace Sys2Proof.Machine

/-! ### Instructions in sequence -/

/-- A sequence runs its first instruction and then the rest from the state it leaves. -/
theorem execAll_cons {i : Instr} {is : List Instr} {s t : State} (h : exec i s = .next t) :
    execAll (i :: is) s = execAll is t := by
  simp only [execAll, h]

theorem execAll_nil (s : State) : execAll [] s = .next s := rfl

/-- What neither of two parts of a run writes is unchanged over both. -/
theorem SameRegsBut.trans {rs rs' : List Reg} {s t u : State} (h : SameRegsBut rs s t)
    (h' : SameRegsBut rs' t u) : SameRegsBut (rs ++ rs') s u := fun r hr => by
  rw [List.mem_append, not_or] at hr
  exact (h' r hr.2).trans (h r hr.1)

theorem SameRegsBut.mono {rs rs' : List Reg} {s t : State} (h : SameRegsBut rs s t)
    (hsub : ∀ r ∈ rs, r ∈ rs') : SameRegsBut rs' s t :=
  fun r hr => h r fun hin => hr (hsub r hin)

theorem SameManager.trans {s t u : State} (h : SameManager s t) (h' : SameManager t u) :
    SameManager s u :=
  ⟨h'.mem.trans h.mem, h'.free.trans h.free, h'.nextId.trans h.nextId⟩

theorem SamePorts.trans {s t u : State} (h : SamePorts s t) (h' : SamePorts t u) : SamePorts s u :=
  ⟨h'.status.trans h.status, h'.waiting.trans h.waiting, h'.out.trans h.out, h'.input.trans h.input,
    h'.params.trans h.params⟩

/-! ### One instruction -/

/-- Settles O15: DIV's test of the divisor decides between the quotient and the fault. -/
theorem divIsTruncatingAndFaultsOnZero : Obligations.DivIsTruncatingAndFaultsOnZero := by
  intro a b c s
  refine ⟨fun hne => ?_, fun hzero => ?_⟩
  · exact ⟨_, _, (Computes.div hne).exec, .setReg_advance s a _, BitVec.toNat_udiv⟩
  · exact ⟨_, _, (Raises.div hzero).exec, State.faulted_status s _, rfl, .faulted s _⟩

/-- Settles O32: with identifier 0 LOADP only sets pc. -/
theorem loadpWithZeroIsAJump : Obligations.LoadpWithZeroIsAJump := fun _ _ _ hzero =>
  ⟨_, (Effect.jump hzero).exec, rfl, fun _ _ => rfl, ⟨rfl, rfl, rfl⟩, ⟨rfl, rfl, rfl, rfl, rfl⟩⟩

/-! ### Sequences -/

/-- Settles O34: CMOV leaves the target in the register the jump reads, and z still holds 0. -/
theorem conditionalJumpFromCmovAndLoadp : Obligations.ConditionalJumpFromCmovAndLoadp := by
  intro z r e c s hne hz
  obtain ⟨t, ht, hw⟩ := cmovCopiesOnNonzeroCondition r e c s
  have hzero : t.reg z = 0#32 := (hw.others z (by simpa using hne.symm)).trans hz
  obtain ⟨u, hu, hpc, hregs, hman, hports⟩ := loadpWithZeroIsAJump z r t hzero
  refine ⟨u, ?_, ?_, hw.others.trans hregs, hw.manager.trans hman, hw.ports.trans hports⟩
  · rw [execAll_cons ht, execAll_cons hu, execAll_nil]
  · rw [hpc, hw.value]

/-- b + ~c + 1 is b - c modulo 2^32 (40_register_ops.md R106). -/
theorem toNat_not_add_one_add (x y : Word) :
    (x + (~~~y + 1#32)).toNat = (x.toNat + 2 ^ 32 - y.toNat) % 2 ^ 32 := by
  have hy := y.isLt
  rw [BitVec.toNat_add, BitVec.toNat_add, BitVec.toNat_not, BitVec.toNat_ofNat]
  omega

/-- Settles O18: the four writes in turn, B still unchanged when it is read. -/
theorem subtractionFromNandAndAdd : Obligations.SubtractionFromNandAndAdd := by
  intro a b c d e s hdb heb hed
  obtain ⟨t₁, e₁, h₁⟩ := writeAndAdvance_writesReg s d (~~~(s.reg c &&& s.reg c))
  obtain ⟨t₂, e₂, h₂⟩ := writeAndAdvance_writesReg t₁ e (immValue 1)
  obtain ⟨t₃, e₃, h₃⟩ := writeAndAdvance_writesReg t₂ d (t₂.reg d + t₂.reg e)
  obtain ⟨t₄, e₄, h₄⟩ := writeAndAdvance_writesReg t₃ a (t₃.reg b + t₃.reg d)
  have hb : t₃.reg b = s.reg b := by
    rw [h₃.others b (by simpa using hdb.symm), h₂.others b (by simpa using heb.symm),
      h₁.others b (by simpa using hdb.symm)]
  have hd : t₃.reg d = ~~~(s.reg c) + 1#32 := by
    rw [h₃.value, h₂.others d (by simpa using hed.symm), h₁.value, h₂.value, BitVec.and_self]
    rfl
  refine ⟨t₄, ?_, ?_, ?_, ?_, ((h₁.manager.trans h₂.manager).trans h₃.manager).trans h₄.manager,
    ((h₁.ports.trans h₂.ports).trans h₃.ports).trans h₄.ports⟩
  · rw [execAll_cons ((exec_nand d c c s).trans e₁), execAll_cons ((exec_li e 1 t₁).trans e₂),
      execAll_cons ((exec_add d d e t₂).trans e₃), execAll_cons ((exec_add a b d t₃).trans e₄),
      execAll_nil]
  · rw [h₄.value, hb, hd, toNat_not_add_one_add]
  · refine (((h₁.others.trans h₂.others).trans h₃.others).trans h₄.others).mono fun r hr => ?_
    simp only [List.cons_append, List.nil_append, List.mem_cons,
      List.not_mem_nil, or_false] at hr ⊢
    tauto
  · rw [h₄.pc, h₃.pc, h₂.pc, h₁.pc]
    simp only [BitVec.add_assoc]
    rfl

/-- A register written with its own value is as before (10_state.md R20). -/
theorem WritesReg.sameRegs {s t : State} {a : Reg} (h : WritesReg s t a (s.reg a)) :
    SameRegsBut [] s t := fun r _ => by
  by_cases hr : r = a
  · rw [hr, h.value]
  · exact h.others r (by simpa using hr)

/-- NOP is a CMOV of a register to itself (30_encoding.md R85). -/
theorem execAll_nop (s : State) :
    ∃ t, execAll Pseudo.nop.expand s = .next t ∧ SameRegsBut [] s t ∧ t.pc = s.pc + 1#32 ∧
      SameManager s t ∧ SamePorts s t := by
  obtain ⟨t, ht, hw⟩ := cmovCopiesOnNonzeroCondition 0 0 0 s
  rw [ite_self] at hw
  exact ⟨t, by rw [Pseudo.expand, execAll_cons ht, execAll_nil], hw.sameRegs, hw.pc, hw.manager,
    hw.ports⟩

/-- NOT is a NAND of a register with itself (30_encoding.md R85). -/
theorem execAll_not (a b : Reg) (s : State) :
    ∃ t, execAll (Pseudo.not a b).expand s = .next t ∧ WritesReg s t a (~~~(s.reg b)) := by
  obtain ⟨t, ht, hw⟩ := writeAndAdvance_writesReg s a (~~~(s.reg b &&& s.reg b))
  rw [BitVec.and_self] at hw
  exact ⟨t, by rw [Pseudo.expand, execAll_cons ((exec_nand a b b s).trans ht), execAll_nil], hw⟩

/-- AND is a NAND and a NOT of its result (30_encoding.md R85). -/
theorem execAll_and (a b c : Reg) (s : State) :
    ∃ t, execAll (Pseudo.and a b c).expand s = .next t ∧ t.reg a = s.reg b &&& s.reg c ∧
      SameRegsBut [a] s t ∧ t.pc = s.pc + 2#32 ∧ SameManager s t ∧ SamePorts s t := by
  obtain ⟨t, ht, hw⟩ := writeAndAdvance_writesReg s a (~~~(s.reg b &&& s.reg c))
  obtain ⟨u, hu, hw'⟩ := writeAndAdvance_writesReg t a (~~~(t.reg a &&& t.reg a))
  refine ⟨u, ?_, ?_, (hw.others.trans hw'.others).mono (by simp), ?_, hw.manager.trans hw'.manager,
    hw.ports.trans hw'.ports⟩
  · rw [Pseudo.expand, execAll_cons ((exec_nand a b c s).trans ht),
      execAll_cons ((exec_nand a a a t).trans hu), execAll_nil]
  · rw [hw'.value, hw.value, BitVec.and_self, BitVec.not_not]
  · rw [hw'.pc, hw.pc, BitVec.add_assoc]
    rfl

/-- Settles O42: each expansion, instruction by instruction. -/
theorem pseudoInstructionsAreExact : Obligations.PseudoInstructionsAreExact := by
  intro s
  refine ⟨execAll_nop s, fun a b => execAll_not a b s, fun a b c => execAll_and a b c s,
    fun z c hz => ?_⟩
  obtain ⟨t, ht, hframe⟩ := loadpWithZeroIsAJump z c s hz
  exact ⟨t, by rw [Pseudo.expand, execAll_cons ht, execAll_nil], hframe⟩

end Sys2Proof.Machine
end

section
/-! PROOFS. The segment manager as instructions use it (20_memory.md R50, R55 to R59, R64, R67): which
cells exist, what MAP issues, the reuse of identifiers, and LOADP's replacement of segment 0. -/

namespace Sys2Proof.Machine

/-! ### Cells -/

/-- Settles O20: a word is there below the length, which an unmapped identifier's is never above, and
the translation's two failures come in the order of R50. -/
theorem cellsAreTheMappedInRangeAddresses : Obligations.CellsAreTheMappedInRangeAddresses := by
  intro m id off
  refine ⟨⟨?_, ?_⟩, fun hmap => ?_, fun hmap hlen => ?_⟩
  · rintro ⟨v, hv⟩
    obtain ⟨g, hfind, hlt, -⟩ := Memory.wordAt_eq_some.mp hv
    exact ⟨Memory.mapped_of_find hfind, Memory.len_of_find hfind ▸ hlt⟩
  · rintro ⟨hmap, hlt⟩
    obtain ⟨g, hfind, hlen⟩ := Memory.mapped_iff.mp hmap
    exact ⟨_, Memory.wordAt_eq_some.mpr ⟨g, hfind, hlen ▸ hlt, rfl⟩⟩
  · exact Memory.translate_error.mpr (.inl ⟨Memory.mapped_eq_false.mp hmap, rfl⟩)
  · obtain ⟨g, hfind, hg⟩ := Memory.mapped_iff.mp hmap
    exact Memory.translate_error.mpr (.inr ⟨g, hfind, hg ▸ hlen, rfl⟩)

/-! ### A segment put in the table -/

/-- An identifier reads as the segment put at it (20_memory.md R47). -/
theorem Memory.find_put_same (m : Memory) (id : Word) (g : Segment) :
    (m.put id g).find id = some g := by
  rw [Memory.find_put, if_pos rfl]

/-- A new segment is mapped, has its length, and every word of it is 0 (20_memory.md R49, R55). -/
theorem Memory.put_zeros_same (m : Memory) (id n : Word) :
    (m.put id (Segment.zeros n.toNat)).mapped id = true ∧
      (m.put id (Segment.zeros n.toNat)).len id = n.toNat ∧
      ∀ off : Word, off.toNat < n.toNat →
        (m.put id (Segment.zeros n.toNat)).wordAt id off = some 0#32 := by
  have hfind := Memory.find_put_same m id (Segment.zeros n.toNat)
  exact ⟨Memory.mapped_of_find hfind, Memory.len_of_find hfind, fun _ hoff =>
    Memory.wordAt_eq_some.mpr ⟨_, hfind, hoff, rfl⟩⟩

/-! ### MAP -/

/-- The counter's value is the identifier issued while one is left (20_memory.md R55). -/
theorem toNat_ofNat_nextId {s : State} (h : s.nextId ≤ 2 ^ 32 - 1) :
    (BitVec.ofNat 32 s.nextId).toNat = s.nextId := by
  rw [BitVec.toNat_ofNat]
  omega

/-- Settles O22: with the storage and an identifier left, SegMap answers and MAP writes its answer. -/
theorem mapAllocatesZeroFilled : Obligations.MapAllocatesZeroFilled := by
  intro b c s hcap hid
  cases hfree : s.free with
  | cons id rest =>
    obtain ⟨hmap, hlen, hwords⟩ := Memory.put_zeros_same s.mem id (s.reg c)
    refine ⟨_, id, (Effect.mapReused hcap hfree).exec, ?_, by simp, ?_, ?_, hmap, hlen, hwords,
      fun _ hj => Memory.put_others _ hj, rfl, ⟨rfl, rfl, rfl, rfl, rfl⟩⟩
    · rintro x rest' hx
      cases hx
      exact ⟨rfl, rfl, rfl⟩
    · simp
    · exact fun r hr => State.setReg_reg_of_not_mem _ _ hr
  | nil =>
    have hnext : s.nextId ≤ 2 ^ 32 - 1 := hid.resolve_left fun h => h hfree
    obtain ⟨hmap, hlen, hwords⟩ := Memory.put_zeros_same s.mem (BitVec.ofNat 32 s.nextId) (s.reg c)
    refine ⟨_, _, (Effect.mapFresh hcap hfree hnext rfl).exec, by simp, fun _ => ?_, ?_, ?_, hmap, hlen,
      hwords, fun _ hj => Memory.put_others _ hj, rfl, ⟨rfl, rfl, rfl, rfl, rfl⟩⟩
    · exact ⟨toNat_ofNat_nextId hnext, hfree, rfl⟩
    · simp
    · exact fun r hr => State.setReg_reg_of_not_mem _ _ hr

/-- If every 32-bit number is a key of a list, the list has as many entries at least. -/
theorem two_pow_le_length {m : Memory} (h : ∀ id : Word, m.mapped id = true) : 2 ^ 32 ≤ m.length := by
  have hsub : Finset.range (2 ^ 32) ⊆ (m.map Prod.fst).toFinset := fun n hn => by
    obtain ⟨g, hfind, -⟩ := Memory.mapped_iff.mp (h (BitVec.ofNat 32 n))
    have hmem := mem_of_assocFind hfind
    rw [BitVec.toNat_ofNat, Nat.mod_eq_of_lt (Finset.mem_range.mp hn)] at hmem
    exact List.mem_toFinset.mpr (List.mem_map.mpr ⟨_, hmem, rfl⟩)
  calc 2 ^ 32 = (Finset.range (2 ^ 32)).card := (Finset.card_range _).symm
    _ ≤ (m.map Prod.fst).toFinset.card := Finset.card_le_card hsub
    _ ≤ (m.map Prod.fst).length := List.toFinset_card_le _
    _ = m.length := List.length_map ..

/-- An identifier is left while fewer than 2^32-1 segments live besides segment 0 (20_memory.md R55). -/
theorem ManagerInv.identifier_left {s : State} (h : ManagerInv s)
    (hfew : s.mem.length - 1 < 2 ^ 32 - 1) : s.free ≠ [] ∨ s.nextId ≤ 2 ^ 32 - 1 := by
  by_contra! hnone
  obtain ⟨hfree, hnext⟩ := hnone
  have hall : ∀ id : Word, s.mem.mapped id = true := fun id => by
    by_cases hzero : id = 0#32
    · exact hzero ▸ h.zero_mapped
    · have hbelow : id.toNat < s.nextId := by
        have := id.isLt
        omega
      simpa [hfree] using (h.covers id hzero).mpr hbelow
  have := two_pow_le_length hall
  omega

/-- A completed MAP writes a mapped non-zero identifier (20_memory.md R55, 10_state.md R29, R31). -/
theorem ManagerInv.issuedId_ne_zero {s : State} (h : ManagerInv s)
    (hid : s.free ≠ [] ∨ s.nextId ≤ 2 ^ 32 - 1) : s.issuedId ≠ 0#32 := by
  cases hfree : s.free with
  | cons id rest =>
    rw [State.issuedId_cons hfree]
    exact fun hzero => h.zero_not_free (by simp [hfree, hzero])
  | nil =>
    have hnext := hid.resolve_left fun hne => hne hfree
    have hpos := h.next_pos
    rw [State.issuedId_nil hfree]
    intro hzero
    have := toNat_ofNat_nextId hnext
    rw [hzero, BitVec.toNat_ofNat] at this
    omega

/-- Settles O24: an identifier is left, so MAP allocates, and none of the free or fresh ones is 0. -/
theorem mapNeverExhaustsWithFewSegments : Obligations.MapNeverExhaustsWithFewSegments := by
  intro b c s hs hunbound hfew
  have hleft := hs.manager.identifier_left hfew
  obtain ⟨t, id, hexec, hreused, hfresh, hreg, -, hmap, -, -, -, hpc, hports⟩ :=
    mapAllocatesZeroFilled b c s (State.overCap_unbounded hunbound _) hleft
  have hid : id = s.issuedId := by
    cases hfree : s.free with
    | cons x rest => rw [State.issuedId_cons hfree, (hreused x rest hfree).1]
    | nil =>
      rw [State.issuedId_nil hfree, ← (hfresh hfree).1, BitVec.ofNat_toNat, BitVec.setWidth_eq]
  exact ⟨t, hexec, hports.status, hpc, hreg ▸ hmap, by
    rw [hreg, hid]
    exact hs.manager.issuedId_ne_zero hleft⟩

/-! ### Released identifiers -/

/-- An identifier on the free list stays there, unless a MAP takes it from the head and returns it
(20_memory.md R55, R59). -/
theorem Effect.free_mem_cases {s t : State} {i : Instr} {id : Word} (h : Effect s i t)
    (hid : id ∈ s.free) :
    id ∈ t.free ∨ ∃ b c : Reg, i = .map b c ∧ s.free = id :: t.free ∧ t.reg b = id ∧
      t.mem.mapped id = true := by
  cases h with
  | mapReused hcap hfree =>
    rw [hfree] at hid
    obtain rfl | hrest := List.mem_cons.mp hid
    · refine .inr ⟨_, _, rfl, hfree, by simp, ?_⟩
      exact (Memory.put_zeros_same _ _ _).1
    · exact .inl hrest
  | unmap => exact .inl (List.mem_cons_of_mem _ hid)
  | _ => exact .inl hid

/-- Settles O26: what UNMAP leaves, what the partition says of it, what a step leaves of it, and that
each of the four instructions checks that its identifier is mapped. -/
theorem useAfterUnmapFaults : Obligations.UseAfterUnmapFaults := by
  refine ⟨fun c s t hne hmap hexec => ?_, fun id s hs hid => ?_, fun id s t _ hid hstep => ?_,
    fun a b d u hne hmap => ?_⟩
  · obtain ⟨t', hexec', hgone, -, hfree, -⟩ := (unmapReleases c s).1 hne hmap
    cases hexec.symm.trans hexec'
    exact ⟨by simp [hfree], hgone⟩
  · exact ⟨fun hzero => hs.manager.zero_not_free (hzero ▸ hid), hs.manager.disjoint id hid⟩
  · obtain ⟨e, -, rfl⟩ | ⟨w, i, hfetch, hdec, h⟩ := step_effect hstep
    · exact .inl hid
    · refine (h.free_mem_cases hid).imp_right ?_
      rintro ⟨b, c, rfl, htaken⟩
      exact ⟨w, b, c, hfetch, hdec, htaken⟩
  · exact ⟨(sloadReadsTheCell d a b u).2 (.inl hmap), (sstoreWritesOneCell a b d u).2 (.inl hmap),
      (unmapReleases a u).2 (.inr hmap), (Raises.loadpUnmapped hne hmap).faults⟩

/-- Settles O27: UNMAP puts the identifier on top of the free list, and MAP takes it from there. -/
theorem mapReissuesTheLastReleased : Obligations.MapReissuesTheLastReleased := by
  intro c b d s hne hmap hunbound
  obtain ⟨t, ht, -, -, hfree, -, hregs, -, hnext, hports⟩ := (unmapReleases c s).1 hne hmap
  obtain ⟨u, id, hu, hreused, -, hreg, -, -, hlen, hwords, -⟩ := mapAllocatesZeroFilled b d t
    (State.overCap_unbounded (hports.params ▸ hunbound) _) (.inl (by simp [hfree]))
  obtain ⟨rfl, hrest, hnext'⟩ := hreused _ _ hfree
  rw [hregs d List.not_mem_nil] at hlen hwords
  exact ⟨u, by rw [execAll_cons ht, execAll_cons hu, execAll_nil], hreg, hrest, hnext'.trans hnext,
    hlen, hwords⟩

/-! ### MAPs in a row -/

/-- One more instruction after a sequence that answers. -/
theorem execAll_snoc {is : List Instr} {i : Instr} {s t u : State} (h : execAll is s = .next t)
    (h' : exec i t = .next u) : execAll (is ++ [i]) s = .next u := by
  induction is generalizing s with
  | nil =>
    cases h
    rw [List.nil_append, execAll_cons h', execAll_nil]
  | cons j js ih =>
    obtain ⟨v, hv⟩ := everyInstructionAnswersANextState j s
    rw [execAll_cons hv] at h
    rw [List.cons_append, execAll_cons hv, ih h]

/-- n MAPs from an empty free list and next = 1, with the parameters they leave: the form in which the
induction on n goes through (20_memory.md R59). -/
theorem execAll_replicate_map {b c : Reg} {s : State} (hfree : s.free = []) (hnext : s.nextId = 1)
    (hunbound : s.params.capWords = none) (n : Nat) (hn : n < 2 ^ 32) :
    ∃ t, execAll (List.replicate n (.map b c)) s = .next t ∧ t.nextId = n + 1 ∧ t.free = [] ∧
      t.params = s.params ∧ (1 ≤ n → (t.reg b).toNat = n) ∧
      ∀ id : Word, 1 ≤ id.toNat → id.toNat ≤ n → t.mem.mapped id = true := by
  induction n with
  | zero => exact ⟨s, rfl, hnext, hfree, rfl, by omega, by omega⟩
  | succ n ih =>
    obtain ⟨t, ht, htnext, htfree, htparams, -, htmapped⟩ := ih (by omega)
    obtain ⟨u, id, hu, -, hfresh, hreg, -, hmap, -, -, hothers, -, hports⟩ :=
      mapAllocatesZeroFilled b c t (State.overCap_unbounded (htparams ▸ hunbound) _)
        (.inr (by omega))
    obtain ⟨hid, hufree, hunext⟩ := hfresh htfree
    refine ⟨u, ?_, hunext.trans (by rw [htnext]), hufree, hports.params.trans htparams, fun _ => ?_,
      fun j hpos hle => ?_⟩
    · rw [List.replicate_succ']
      exact execAll_snoc ht hu
    · rw [hreg, hid, htnext]
    · by_cases hj : j = id
      · exact hj ▸ hmap
      · have hne : j.toNat ≠ id.toNat := fun e => hj (BitVec.eq_of_toNat_eq e)
        exact (hothers j hj).1.trans (htmapped j hpos (by omega))

/-- Settles O28: the induction, without the parameters. -/
theorem freshIdentifiersCountFromOne : Obligations.FreshIdentifiersCountFromOne := by
  intro b c s n hfree hnext hunbound hn
  obtain ⟨t, ht, htnext, htfree, -, hreg, hmapped⟩ := execAll_replicate_map hfree hnext hunbound n hn
  exact ⟨t, ht, htnext, htfree, hreg, hmapped⟩

/-! ### Reads after stores -/

/-- Settles O30: the stored word is there, and the load finds its operands unchanged. -/
theorem loadAfterStoreReadsTheStored : Obligations.LoadAfterStoreReadsTheStored := by
  intro a b c d s hmap hoff
  obtain ⟨t, ht, hword, -, -, hregs, hpc, -⟩ := (sstoreWritesOneCell a b c s).1 hmap hoff
  rw [← hregs a List.not_mem_nil, ← hregs b List.not_mem_nil] at hword
  obtain ⟨u, hu, hw⟩ := (sloadReadsTheCell d a b t).1 _ hword
  refine ⟨u, by rw [execAll_cons ht, execAll_cons hu, execAll_nil], hw.value, hregs.trans hw.others, ?_⟩
  rw [hw.pc, hpc, BitVec.add_assoc]
  rfl

/-- Settles O31: the fetch reads segment 0 as the store left it, at the pc the store advanced to. -/
theorem storeToNextWordIsFetched : Obligations.StoreToNextWordIsFetched := by
  intro a b c s ha hb hmap hoff
  rw [← ha] at hmap hoff
  rw [← hb] at hoff
  obtain ⟨t, ht, hword, -, -, -, hpc, -⟩ := (sstoreWritesOneCell a b c s).1 hmap hoff
  refine ⟨t, ht, hpc, ?_⟩
  rw [State.fetch, hpc, ← hb, ← ha, hword]

/-! ### LOADP -/

/-- Two identifiers with the same segment have the same length and words (20_memory.md R47). -/
theorem Memory.same_segment {m m' : Memory} {id id' : Word} (h : m'.find id' = m.find id) :
    m'.len id' = m.len id ∧ ∀ off : Word, m'.wordAt id' off = m.wordAt id off := by
  simp [Memory.len, Memory.wordAt, Memory.segRead, Memory.translate, h]

/-- Settles O33: the replacement, and the two checks that fail before it. -/
theorem loadpReplacesSegmentZero : Obligations.LoadpReplacesSegmentZero := by
  intro b c s hne
  refine ⟨fun hmap hcap => ?_, fun hmap => ?_, fun hmap hcap => ?_⟩
  · obtain ⟨g, hfind, hlen⟩ := Memory.mapped_iff.mp hmap
    have hzero := Memory.find_put_same s.mem 0#32 g
    obtain ⟨hlen', hwords⟩ := Memory.same_segment (hzero.trans hfind.symm)
    exact ⟨_, (Effect.replace hne hfind (hlen ▸ hcap)).exec, rfl, Memory.mapped_of_find hzero, hlen',
      hwords, fun _ hj => Memory.put_others g hj, hwords _, fun _ _ => rfl, rfl, rfl,
      ⟨rfl, rfl, rfl, rfl, rfl⟩⟩
  · have hraise := Raises.loadpUnmapped (c := c) hne hmap
    exact ⟨hraise.faults, hraise.faultsFor⟩
  · obtain ⟨g, hfind, hlen⟩ := Memory.mapped_iff.mp hmap
    exact (Raises.loadpStorage hne hfind (hlen ▸ hcap)).faults

end Sys2Proof.Machine
end

section
/-! PROOFS. Input and output (43_io.md R140, R141, 10_state.md R33, R41): OUT, IN with an answer, IN at the
end of a sticky stream, and the wait. -/

namespace Sys2Proof.Machine

/-! ### OUT -/

/-- The byte of a value that fits one is that value (43_io.md R140). -/
theorem lowByte_toNat {v : Word} (h : v.toNat ≤ 255) : (lowByte v).toNat = v.toNat := by
  rw [lowByte, Laws.extract_toNat]
  omega

/-- Settles O36: OUT's test decides between the byte and the fault. -/
theorem outEmitsOneByteOrFaults : Obligations.OutEmitsOneByteOrFaults := by
  intro c s
  refine ⟨fun hbyte => ?_, fun hbig => ?_⟩
  · exact ⟨_, lowByte (s.reg c), (Effect.emit hbyte).exec, lowByte_toNat hbyte, rfl, fun _ _ => rfl, rfl,
      ⟨rfl, rfl, rfl⟩, rfl, rfl, rfl, rfl⟩
  · exact ⟨_, _, (Raises.out hbig).exec, State.faulted_status s _, rfl, .faulted s _⟩

/-! ### IN with an answer -/

/-- A listed answer is the one read (10_state.md R41). -/
theorem InputPort.read_cons {p : InputPort} {e : InputAnswer} {rest : List InputAnswer}
    (h : p.answers = e :: rest) : p.read = some (e, ⟨rest, p.after, p.consumed ++ [e]⟩) := by
  simp only [InputPort.read, h]

/-- With none listed a sticky stream answers its end (92_eei_decisions.md D10). -/
theorem InputPort.read_sticky {p : InputPort} (h : p.answers = []) (hafter : p.after = .eosForever) :
    p.read = some (.eos, ⟨[], .eosForever, p.consumed ++ [.eos]⟩) := by
  simp only [InputPort.read, h, hafter]

/-- With none listed and none to come there is no answer (10_state.md R33). -/
theorem InputPort.read_never {p : InputPort} (h : p.answers = []) (hafter : p.after = .never) :
    p.read = none := by
  simp only [InputPort.read, h, hafter]

/-- t is s after an IN into c completed with answer e, the port then p (43_io.md R141). -/
structure Answered (s t : State) (c : Reg) (e : InputAnswer) (p : InputPort) : Prop where
  value : t.reg c = answerValue e
  others : SameRegsBut [c] s t
  pc : t.pc = s.pc + 1#32
  manager : SameManager s t
  input : t.input = p
  waiting : t.waitingInput = false
  status : t.status = s.status
  out : t.out = s.out
  params : t.params = s.params

/-- An IN completes with the answer read (43_io.md R141). -/
theorem exec_inp_answered {s : State} {e : InputAnswer} {p : InputPort} (c : Reg)
    (hread : s.input.read = some (e, p)) : ∃ t, exec (.inp c) s = .next t ∧ Answered s t c e p :=
  ⟨_, (Effect.answer hread).exec, State.setReg_reg_same _ _ _,
    fun _ hr => State.setReg_reg_of_not_mem _ _ hr, rfl, ⟨rfl, rfl, rfl⟩, rfl, rfl, rfl, rfl, rfl⟩

/-- Settles O37: the first listed answer is read, and its value is the byte's or the sentinel. -/
theorem inWritesTheAnswer : Obligations.InWritesTheAnswer := by
  intro c s e rest hanswers
  obtain ⟨t, ht, h⟩ := exec_inp_answered c (InputPort.read_cons hanswers)
  refine ⟨t, ht, ?_, ?_, by rw [h.input], by rw [h.input], by rw [h.input], h.waiting, h.others, h.pc,
    h.manager, h.status, h.out, h.params⟩
  · rintro v rfl
    rw [h.value]
    exact BitVec.toNat_setWidth_of_le (by decide)
  · rintro rfl
    rw [h.value]
    rfl

/-! ### The end of a sticky stream -/

/-- Settles O38: each IN reads EOS and leaves the port sticky, so the next does too. -/
theorem endOfStreamIsSticky : Obligations.EndOfStreamIsSticky := by
  intro cs
  induction cs with
  | nil =>
    intro s hanswers hafter
    exact ⟨s, rfl, by simp, fun _ _ => rfl, by simp, rfl, ⟨rfl, rfl, rfl⟩, rfl, rfl, by simp, hanswers,
      hafter, by simp⟩
  | cons c cs ih =>
    intro s hanswers hafter
    obtain ⟨t, ht, h⟩ := exec_inp_answered c (InputPort.read_sticky hanswers hafter)
    obtain ⟨u, hu, hvalues, hregs, hpc, hstatus, hman, hout, hparams, hwait, hanswers', hafter',
      hconsumed⟩ := ih t (by rw [h.input]) (by rw [h.input])
    refine ⟨u, ?_, fun r hr => ?_, h.others.trans hregs, ?_, hstatus.trans h.status,
      h.manager.trans hman, hout.trans h.out, hparams.trans h.params, ?_, hanswers', hafter', ?_⟩
    · rw [List.map_cons, execAll_cons ht, hu]
    · by_cases hin : r ∈ cs
      · exact hvalues r hin
      · obtain rfl : r = c := (List.mem_cons.mp hr).resolve_right hin
        rw [hregs r hin, h.value]
        rfl
    · rw [hpc, h.pc, BitVec.add_assoc, List.length_cons, Nat.add_comm, BitVec.ofNat_add]
    · simp [hwait, h.waiting]
    · rw [hconsumed, h.input]
      simp [List.replicate_succ]

/-! ### The wait -/

/-- Settles O39: without an answer IN only sets the waiting bit, which leaves no step; an answer gives
one, and it is the same IN, completed. -/
theorem waitSurvivesAndAnswerEndsIt : Obligations.WaitSurvivesAndAnswerEndsIt := by
  intro c s w e hrun hwait hfetch hdec hanswers hafter
  have hstep : s.noStep? = none := State.noStep?_eq_none_of_running hrun (.inl hwait)
  refine ⟨?_, ?_, ?_⟩
  · exact (stepWith_of_instr hstep hfetch hdec).trans
      (Effect.wait (InputPort.read_never hanswers hafter)).exec
  · have hsilent : s.input.silent = true := InputPort.silent_iff.mpr ⟨hanswers, hafter⟩
    exact stepWith_of_noStep (by simp [State.noStep?, hrun, hsilent])
  · have hread : (State.hostAnswer { s with waitingInput := true } e).input.read =
        some (e, ⟨[], .never, s.input.consumed ++ [e]⟩) := by
      have hlisted : (s.hostAnswer e).input.answers = e :: [] := by simp [State.hostAnswer, hanswers]
      exact hafter ▸ InputPort.read_cons hlisted
    obtain ⟨t, ht, h⟩ := exec_inp_answered c hread
    have hstep' : (State.hostAnswer { s with waitingInput := true } e).noStep? = none :=
      State.noStep?_eq_none_of_running hrun (.inr (by rw [InputPort.silent, hread]; rfl))
    exact ⟨t, (stepWith_of_instr hstep' hfetch hdec).trans ht, h.waiting, h.pc, h.value, h.others,
      ⟨h.manager.mem, h.manager.free, h.manager.nextId⟩, h.status, h.out, h.params,
      by rw [h.input], by rw [h.input], by rw [h.input]⟩

end Sys2Proof.Machine
end

section
/-! PROOFS. The program-load port (10_state.md R40, 70_reset_and_hazards.md R181, R184): the words of a
byte source, when the core starts, and the empty program. -/

namespace Sys2Proof.Machine

/-! ### The words of a byte source -/

/-- A word sequence comes from four bytes for each word (10_state.md R40). -/
theorem wordsOfBytes_length {bytes : List Byte} {words : List Word}
    (h : wordsOfBytes bytes = some words) : bytes.length = 4 * words.length := by
  induction bytes using wordsOfBytes.induct generalizing words with
  | case1 =>
    cases h
    rfl
  | case2 b0 b1 b2 b3 rest ws hrest ih =>
    simp only [wordsOfBytes, hrest, Option.some.injEq] at h
    subst h
    simp only [List.length_cons, ih hrest]
    omega
  | case3 b0 b1 b2 b3 rest hrest ih => simp [wordsOfBytes, hrest] at h
  | case4 bytes hnil hcons => simp [wordsOfBytes] at h

/-- A byte after a number in bits (20_memory.md R60). -/
theorem toNat_append_byte {n : Nat} (x : BitVec n) (b : Byte) :
    (x ++ b).toNat = x.toNat * 2 ^ 8 + b.toNat := by
  rw [BitVec.toNat_append, ← Nat.shiftLeft_add_eq_or_of_lt b.isLt, Nat.shiftLeft_eq]

/-- The first byte of a word is the most significant one (10_state.md R40). -/
theorem beWord_toNat (b0 b1 b2 b3 : Byte) :
    (beWord b0 b1 b2 b3).toNat =
      b0.toNat * 2 ^ 24 + b1.toNat * 2 ^ 16 + b2.toNat * 2 ^ 8 + b3.toNat := by
  rw [beWord, toNat_append_byte, toNat_append_byte, toNat_append_byte]
  omega

/-- Each word is made of its own four bytes (10_state.md R40). -/
theorem wordsOfBytes_getD {bytes : List Byte} {words : List Word}
    (h : wordsOfBytes bytes = some words) {i : Nat} (hi : i < words.length) :
    words.getD i 0 = beWord (bytes.getD (4 * i) 0) (bytes.getD (4 * i + 1) 0)
      (bytes.getD (4 * i + 2) 0) (bytes.getD (4 * i + 3) 0) := by
  induction bytes using wordsOfBytes.induct generalizing words i with
  | case1 =>
    cases h
    cases hi
  | case2 b0 b1 b2 b3 rest ws hrest ih =>
    simp only [wordsOfBytes, hrest, Option.some.injEq] at h
    subst h
    cases i with
    | zero => rfl
    | succ i => exact ih hrest (Nat.lt_of_succ_lt_succ hi)
  | case3 b0 b1 b2 b3 rest hrest ih => simp [wordsOfBytes, hrest] at h
  | case4 bytes hnil hcons => simp [wordsOfBytes] at h

/-- Settles O57: four bytes for each word, the first the most significant. -/
theorem programBytesAreBigEndian : Obligations.ProgramBytesAreBigEndian := fun bytes words h =>
  ⟨wordsOfBytes_length h, fun i hi => by rw [wordsOfBytes_getD h hi, beWord_toNat]⟩

/-! ### Accepted byte sources -/

/-- A byte source of whole words gives a word sequence (10_state.md R40). -/
theorem wordsOfBytes_exists {bytes : List Byte} (h : bytes.length % 4 = 0) :
    ∃ words, wordsOfBytes bytes = some words := by
  induction bytes using wordsOfBytes.induct with
  | case1 => exact ⟨[], rfl⟩
  | case2 b0 b1 b2 b3 rest ws hrest ih => exact ⟨_, by simp only [wordsOfBytes, hrest]; rfl⟩
  | case3 b0 b1 b2 b3 rest hrest ih =>
    simp only [List.length_cons] at h
    obtain ⟨ws, hws⟩ := ih (by omega)
    simp [hrest] at hws
  | case4 bytes hnil hcons =>
    match bytes, h with
    | [], _ => exact absurd rfl hnil
    | b0 :: b1 :: b2 :: b3 :: rest, _ => exact absurd rfl (hcons b0 b1 b2 b3 rest)

/-- A reset with a byte source starts the core exactly when the source gives a word sequence within
both limits (70_reset_and_hazards.md R181). -/
theorem resetWithBytes_starts {p : Params} {answers : List InputAnswer} {tail : InputTail}
    {bytes : List Byte} :
    (∃ s, resetWithBytes p answers tail bytes = .ok s) ↔
      ∃ prog, wordsOfBytes bytes = some prog ∧ prog.length ≤ 2 ^ 32 - 1 ∧
        ∀ cap : Nat, p.capWords = some cap → prog.length ≤ cap := by
  unfold resetWithBytes
  cases wordsOfBytes bytes with
  | none => simp
  | some prog => simp [resetWith_ok, fitsCap_iff, Config.programMaxWords]

/-- Settles O56: the word sequence exists for whole words alone, and has a quarter of the length. -/
theorem refusedResets : Obligations.RefusedResets := by
  intro p answers tail bytes
  rw [resetWithBytes_starts]
  constructor
  · rintro ⟨prog, hwords, hmax, hcap⟩
    have hlen := wordsOfBytes_length hwords
    have hquarter : bytes.length / 4 = prog.length := by omega
    rw [hquarter]
    exact ⟨by omega, hmax, hcap⟩
  · rintro ⟨hwhole, hmax, hcap⟩
    obtain ⟨prog, hwords⟩ := wordsOfBytes_exists hwhole
    have hlen := wordsOfBytes_length hwords
    have hquarter : bytes.length / 4 = prog.length := by omega
    rw [hquarter] at hmax hcap
    exact ⟨prog, hwords, hmax, hcap⟩

/-! ### The empty program -/

/-- Settles O58: the empty program is within every limit, and there is no word to fetch. -/
theorem emptyProgramFaultsAtOnce : Obligations.EmptyProgramFaultsAtOnce := by
  intro p answers tail
  have haccepted : resetWith p answers tail [] = .ok (bootState p answers tail []) :=
    resetWith_ok.mpr ⟨Nat.zero_le _, fitsCap_iff.mpr fun _ _ => Nat.zero_le _, rfl⟩
  have hfetch : (bootState p answers tail []).fetch = none := bootState_wordAt p answers tail [] 0#32
  have hstep : (bootState p answers tail []).noStep? = none :=
    State.noStep?_eq_none_of_running rfl (.inl rfl)
  exact ⟨_, _, _, haccepted, stepWith_of_no_word hstep hfetch, State.faulted_status _ _,
    rfl, rfl, hfetch⟩

end Sys2Proof.Machine
end
